-- ==== Sys2Proof/Word.lean ====
section
/-! DEFINITION. The words of the engine: the 32-bit register word and the byte of one bus lane. -/

namespace Sys2Proof

/-- One register word, one limb, one bus transfer's data (rules R23, R54). -/
abbrev Word := BitVec 32

/-- One byte lane of the bus (rule R56). -/
abbrev Byte := BitVec 8

end Sys2Proof
end

