-- ==== Sys2Proof/Syntax.lean ====
section
/-! DEFINITION. The commands of the engine: one constructor for each row of spec/opcode_table.json. -/

namespace Sys2Proof

/-- The number of a big-integer register X0..X7, a 3-bit field (rule R73). -/
abbrev XName := BitVec 3

/-- The bit-count source of PRIMEGEN, the field BSEL (rule R74). Its fourth value is reserved and makes
the word illegal, so it is no value of this type. -/
inductive BitSel where
  | bits
  | pbits
  | qbits
  deriving DecidableEq, Repr

/-- The four commands (rule R72), in the order of the opcode table. Every term is a well-formed command:
the fields a command does not use are 0 in its word and are no arguments here (rule R76). -/
inductive Instr where
  /-- `POWMOD Xd, Xa, Xb, Xc` (rule R90). -/
  | powmod (rd ra rb rc : XName)
  /-- `ISPRIME Xa` (rule R110). -/
  | isprime (ra : XName)
  /-- `PRIMEGEN Xd, BITS|PBITS|QBITS` (rule R140). -/
  | primegen (rd : XName) (sel : BitSel)
  /-- `SPLIT` (rule R135). -/
  | split
  deriving DecidableEq, Repr

end Sys2Proof
end

