-- ==== Sys2Proof/WellFormed.lean ====
section
/-! DEFINITION. Which command words are legal, written from the field table of rules R71 to R77 and not
from the decoder. The terms of `Instr` need no check of their own: a register number has three bits and
the reserved BSEL value is no `BitSel`. -/

namespace Sys2Proof

/-- The fields of the one format CMD32 (rule R71), cut out of a word. -/
structure CmdFields where
  op : BitVec 4
  z0 : BitVec 4
  rd : BitVec 3
  z1 : BitVec 1
  ra : BitVec 3
  z2 : BitVec 1
  rb : BitVec 3
  z3 : BitVec 1
  rc : BitVec 3
  z4 : BitVec 1
  bsel : BitVec 2
  z5 : BitVec 6
  deriving DecidableEq, Repr

/-- Rule R71. -/
def cmdFields (c : Word) : CmdFields :=
  { op := c.extractLsb' 0 4, z0 := c.extractLsb' 4 4, rd := c.extractLsb' 8 3, z1 := c.extractLsb' 11 1
    ra := c.extractLsb' 12 3, z2 := c.extractLsb' 15 1, rb := c.extractLsb' 16 3
    z3 := c.extractLsb' 19 1, rc := c.extractLsb' 20 3, z4 := c.extractLsb' 23 1
    bsel := c.extractLsb' 24 2, z5 := c.extractLsb' 26 6 }

/-- The bits Z0 to Z5, which must be 0 in every command (rule R76). -/
def CmdFields.zerosOk (f : CmdFields) : Bool :=
  f.z0 == 0 && f.z1 == 0 && f.z2 == 0 && f.z3 == 0 && f.z4 == 0 && f.z5 == 0

/-- The operand fields that the opcode does not use are 0 (the table of rule R76). -/
def CmdFields.unusedOk (f : CmdFields) : Bool :=
  if f.op = 1 then f.bsel == 0
  else if f.op = 2 then f.rd == 0 && f.rb == 0 && f.rc == 0 && f.bsel == 0
  else if f.op = 3 then f.ra == 0 && f.rb == 0 && f.rc == 0
  else if f.op = 4 then f.rd == 0 && f.ra == 0 && f.rb == 0 && f.rc == 0 && f.bsel == 0
  else true

/-- OP names one of the four commands (rule R72). -/
def CmdFields.opOk (f : CmdFields) : Bool :=
  f.op == 1 || f.op == 2 || f.op == 3 || f.op == 4

/-- BSEL = 3 is reserved in PRIMEGEN (rule R74). -/
def CmdFields.bselOk (f : CmdFields) : Bool := !(f.op == 3 && f.bsel == 3)

/-- A legal command word: none of the conditions of rule R77 holds. -/
def wordLegal (c : Word) : Bool :=
  let f := cmdFields c
  f.opOk && f.zerosOk && f.unusedOk && f.bselOk

end Sys2Proof
end

