-- ==== Sys2Proof/Decode.lean ====
section
/-! DEFINITION. The decoder of command words (rules R78, R79), total on every 32-bit word; the encoder,
written from the same table; the byte lanes of a bus word (rule R56); and the assembler line of a command
(rule R80). -/

namespace Sys2Proof

/-- Byte lane j of a word: bits [8*j+7 : 8*j] (rule R56). -/
def laneOf (w : Word) (j : Nat) : Byte := w.extractLsb' (8 * j) 8

/-- The word carried by four byte lanes, lane 0 first (rule R56). -/
def wordOfLanes (l0 l1 l2 l3 : Byte) : Word := l3 ++ l2 ++ l1 ++ l0

/-- What the decoder answers (rule R79): a command, or ILLEGAL. -/
inductive Decoded where
  | cmd (i : Instr)
  | illegal
  deriving DecidableEq, Repr

/-- A 3-bit register field of a command word (rules R71, R73). -/
def regField (c : Word) (lo : Nat) : XName := c.extractLsb' lo 3

/-- The field BSEL, bits [25:24] (rule R74); none for the reserved value 3. -/
def bselField (c : Word) : Option BitSel :=
  let b := c.extractLsb' 24 2
  if b = 0 then some .bits else if b = 1 then some .pbits else if b = 2 then some .qbits else none

/-- The decoder of rule R79: four match and mask tests, and ILLEGAL for every other word. -/
def decode (c : Word) : Decoded :=
  if c &&& 0xFF8888FF#32 = 0x00000001#32 then
    .cmd (.powmod (regField c 8) (regField c 12) (regField c 16) (regField c 20))
  else if c &&& 0xFFFF8FFF#32 = 0x00000002#32 then .cmd (.isprime (regField c 12))
  else if c &&& 0xFCFFF8FF#32 = 0x00000003#32 then
    match bselField c with
    | some sel => .cmd (.primegen (regField c 8) sel)
    | none => .illegal
  else if c = 0x00000004#32 then .cmd .split
  else .illegal

/-- The value of BSEL that names a bit-count source (rule R74). -/
def BitSel.code : BitSel → BitVec 2
  | .bits => 0
  | .pbits => 1
  | .qbits => 2

/-- The word of a command: the bit pattern of rule R78, bit 31 first. -/
def encode : Instr → Word
  | .powmod rd ra rb rc => 0#9 ++ rc ++ 0#1 ++ rb ++ 0#1 ++ ra ++ 0#1 ++ rd ++ 0x01#8
  | .isprime ra => 0#17 ++ ra ++ 0x002#12
  | .primegen rd sel => 0#6 ++ sel.code ++ 0#13 ++ rd ++ 0x03#8
  | .split => 0x00000004#32

/-- The decoder on the four byte lanes of a transfer to CMD, lane 0 first (rules R33, R56, R70). -/
def decodeLanes (l0 l1 l2 l3 : Byte) : Decoded := decode (wordOfLanes l0 l1 l2 l3)

/-- The command word whose bits below `nbits` are those of w and whose other bits are 0. -/
def tableWord (nbits w : Nat) : Word := BitVec.ofNat 32 (w % 2 ^ nbits)

/-- The command read from the bits of a row of spec/opcode_table.json: the word is laid out in its byte
lanes and given to the decoder. -/
def decodeTableWord (nbits w : Nat) : Option Instr :=
  let c := tableWord nbits w
  match decodeLanes (laneOf c 0) (laneOf c 1) (laneOf c 2) (laneOf c 3) with
  | .cmd i => some i
  | .illegal => none

/-- The name of register k in an assembler line (rule R80). -/
def XName.asm (x : XName) : String := "X" ++ toString x.toNat

/-- The name of a bit-count source in an assembler line (rule R80). -/
def BitSel.asm : BitSel → String
  | .bits => "BITS"
  | .pbits => "PBITS"
  | .qbits => "QBITS"

/-- The assembler line of a command (rule R80). -/
def Instr.asm : Instr → String
  | .powmod rd ra rb rc =>
    "POWMOD " ++ XName.asm rd ++ ", " ++ XName.asm ra ++ ", " ++ XName.asm rb ++ ", " ++ XName.asm rc
  | .isprime ra => "ISPRIME " ++ XName.asm ra
  | .primegen rd sel => "PRIMEGEN " ++ XName.asm rd ++ ", " ++ sel.asm
  | .split => "SPLIT"

end Sys2Proof
end

