-- ==== Sys2Proof/Config.lean ====
section
/-! DEFINITION. What an implementation fixes (rule R5, rule R171) and the free values of the model. -/

namespace Sys2Proof

/-- MR_BOUND_OFFSET (rules R5, R119): the k of the witness draw `Draw_below(N - k) + 2`. The spec
admits 4, the default, and 3. -/
inductive BoundOffset where
  | four
  | three
  deriving DecidableEq, Repr

/-- The number that a setting of MR_BOUND_OFFSET stands for. -/
def BoundOffset.value : BoundOffset → Nat
  | .four => 4
  | .three => 3

/-- The parameters of the model (rule R5; ENGINE_IRQ is rule R171). They are configuration, not state
(rule R13): the machine carries them in its state and no step changes them. -/
structure Config where
  /-- Limbs of a big-integer register, 1 to 128 (rules R5, R6). -/
  nlimbs : Nat
  /-- ENGINE_BASE, a multiple of 0x2000 (rules R5, R53). -/
  engineBase : Nat
  /-- ENGINE_IRQ, the platform's number of the completion interrupt (rule R171). -/
  engineIrq : Nat
  /-- MR_BOUND_OFFSET (rule R119). -/
  mrBoundOffset : BoundOffset
  /-- MR_EARLY_EXIT = 1 (rule R116). -/
  mrEarlyExit : Bool
  deriving DecidableEq, Repr

/-- W = 32 * NLIMBS, the width of a big-integer register in bits (rule R5). -/
def Config.width (c : Config) : Nat := 32 * c.nlimbs

/-- A configuration of this hardware: NLIMBS in 1..128 (rule R6) and ENGINE_BASE a multiple of 0x2000
(rule R5). -/
def Config.valid (c : Config) : Bool :=
  decide (1 ≤ c.nlimbs) && decide (c.nlimbs ≤ 128) && decide (c.engineBase % 0x2000 = 0)

/-- The configuration of `State.reset`: the defaults of rule R5 for MR_BOUND_OFFSET and MR_EARLY_EXIT.
DESIGN CHOICE, unsafe if read as every configuration: NLIMBS = 2, ENGINE_BASE = 0, ENGINE_IRQ = 0, which
the spec leaves open (log entry 2). Statements about every state hold for every configuration. -/
def Config.default : Config :=
  { nlimbs := 2, engineBase := 0, engineIrq := 0, mrBoundOffset := .four, mrEarlyExit := true }

/-- The free words: a word the spec leaves unspecified is this constant applied to a counter of the
state (a read of an X limb while BUSY, rule R58; an X limb after rst_n, rule R28). It has no body, so no
proof can rest on a value of it. DESIGN CHOICE, safe (log entry 5). -/
opaque Config.freeWord : Nat → Word

/-- The free answers of the random source: a number of which nothing is known, for each count of the
state's counter. `Draw.freeAnswer` takes it into the range of the request's law. It has no body, so a
proof holds for every sequence of lawful answers (rule R130). DESIGN CHOICE, safe (log entry 23). -/
opaque Config.freeNumber : Nat → Nat

end Sys2Proof
end

