-- ==== Sys2Proof/Machine/State.lean ====
section
/-! DEFINITION. The state of the machine as plain data: everything rule R20 and the rules it names give
the engine, the port signals that a step must remember, and the moves of the agents still to come. -/

namespace Sys2Proof.Machine

/-- STATUS.ERRCODE (rule R161). The codes 6 to 15 are never produced and are no values of this type. -/
inductive ErrCode where
  | noError
  | illegal
  | divzero
  | range
  | rngBound
  | rngLaw
  deriving DecidableEq, Repr

/-- A request to the random source (rules R24, R130): `rng_kind` and `rng_arg`. -/
inductive Draw where
  /-- `Draw_below(b)`: a number in [0, b). -/
  | below (b : Nat)
  /-- `Draw_bits(k)`: a number of exactly k bits. -/
  | bits (k : Nat)
  deriving DecidableEq, Repr

/-- One limb of an X register (rule R26) with its written mark (rule R28). -/
structure Limb where
  val : Word
  /-- The host or a command has written this limb since reset. -/
  written : Bool
  deriving DecidableEq, Repr

/-- An X register: its limbs, limb 0 first (rules R8, R26, R57). -/
abbrev XReg := List Limb

/-- The variables v, p and e of the loop of rule R90 (rule R40). -/
structure PowLoop where
  v : Nat
  p : Nat
  e : Nat
  deriving DecidableEq, Repr

/-- A running POWMOD (rules R40, R90): the snapshot B, E, M, and the loop's variables once M has been
checked (`none` before that). -/
structure PowWork where
  b : Nat
  e : Nat
  m : Nat
  loop : Option PowLoop
  deriving DecidableEq, Repr

/-- Where the procedure mr of rule R110 stands. -/
inductive MrPoint where
  /-- Before the tests of rule R111. -/
  | start
  /-- In the halving loop of rule R112. -/
  | halve
  /-- At the head of a round; with its request raised, waiting for the witness (rules R113, R119). -/
  | round
  /-- In the power loop that computes y = a^r mod N (rule R114). -/
  | power (l : PowLoop)
  /-- In the squaring loop, with y and j (rule R116). -/
  | square (y j : Nat)
  deriving DecidableEq, Repr

/-- The procedure mr at work (rules R40, R110): the candidate N, the round count K, s and r of
N-1 = 2^s * r, the round counter and the point reached. -/
structure MrWork where
  n : Nat
  k : Nat
  s : Nat
  r : Nat
  round : Nat
  pt : MrPoint
  deriving DecidableEq, Repr

/-- A running SPLIT (rule R135): the snapshot nbits, and rr once the draw has been answered. -/
structure SplitWork where
  nbits : Nat
  rr : Option Nat
  deriving DecidableEq, Repr

/-- Where PRIMEGEN stands (rule R140). -/
inductive GenPoint where
  /-- Before the range check of rule R143. -/
  | check
  /-- At the candidate draw; with its request raised, waiting for the candidate (rule R144). -/
  | draw
  /-- Testing the current candidate, which is `m.n` (rule R145). -/
  | test (m : MrWork)
  deriving DecidableEq, Repr

/-- A running PRIMEGEN (rules R40, R140): the snapshot bits and K, and the point reached. -/
structure GenWork where
  bits : Nat
  k : Nat
  pt : GenPoint
  deriving DecidableEq, Repr

/-- The hidden state of the command that runs (rule R40): the decoded command with its register numbers
and its working state. -/
inductive Running where
  /-- An illegal word that has been accepted (rule R166). -/
  | illegal
  | powmod (rd ra rb rc : XName) (w : PowWork)
  | isprime (ra : XName) (w : MrWork)
  | primegen (rd : XName) (sel : BitSel) (w : GenWork)
  | split (w : SplitWork)
  deriving DecidableEq, Repr

/-- The engine phase (rule R34). The hidden state exists only while BUSY (rules R40, R162). -/
inductive Phase where
  | idle
  | busy (r : Running)
  deriving DecidableEq, Repr

/-- One host bus transfer (rule R23), with the host's full physical address (rule R53). -/
structure Access where
  /-- `we`: a write. -/
  write : Bool
  addr : Nat
  be : BitVec 4
  wdata : Word
  deriving DecidableEq, Repr

/-- How the engine ended the last transfer (rule R23): `err`, and `rdata` for a read. -/
structure Resp where
  err : Bool
  rdata : Option Word
  deriving DecidableEq, Repr

/-- One move of an agent (rule R13), or of the reset line. -/
inductive Event where
  /-- The host presents a transfer. -/
  | bus (a : Access)
  /-- The random source raises rng_ack with rng_val = v. -/
  | answer (v : Nat)
  /-- The random source raises rng_ack with a free number that keeps the law of the request (rule R130; log
  entry 23). -/
  | freeAnswer
  /-- The engine takes a step. -/
  | engine
  /-- rst_n goes low and high again (rule R190). -/
  | reset
  deriving DecidableEq, Repr

/-- The model faults of rule R169 that are recorded as fault bits. No step ENDS in a fault: the machine
goes on, and the recorded bit says that its state is never final. -/
inductive Fault where
  /-- UNWRITTEN_READ (rules R28, R169): recorded in `State.recorded` by an operand snapshot and by a host
  read that reaches an X limb nothing has written since reset. Safe: a claim about a run that records it
  can exclude it, and no step stops for it. -/
  | unwrittenRead
  deriving DecidableEq, Repr

/-- Why a step has no meaning. -/
inductive Refusal where
  /-- A command of the opcode table without a meaning. Raised by nobody: all four have theirs. Safe. -/
  | notModelled (mnemonic : String)
  /-- BAD_CONFIG (rules R6, R169): raised by `step` in a configuration outside rule R5: NLIMBS outside
  1..128, or ENGINE_BASE no multiple of 0x2000. Safe: it is no configuration of this hardware. -/
  | badConfig
  deriving DecidableEq, Repr

/-- The whole machine. Fields that no rule names are marked as the model's own. -/
structure State where
  /-- The configuration (rule R5); no step changes it. -/
  cfg : Config
  /-- X0..X7 (rule R26). -/
  x : Vector XReg 8
  /-- CTRL.IE (rule R31). -/
  ie : Bool
  /-- STATUS.DONE (rule R32). -/
  done : Bool
  /-- STATUS.PRIME (rule R32). -/
  prime : Bool
  /-- STATUS.OVR (rule R32). -/
  ovr : Bool
  /-- STATUS.ERRCODE (rule R32). -/
  errcode : ErrCode
  /-- The last accepted command word, read back at CMD (rule R33). -/
  cmdLast : Word
  /-- ITERS (rule R35). -/
  iters : Word
  /-- BITS (rule R36). -/
  bits : Word
  /-- PBITS (rule R37). -/
  pbits : Word
  /-- QBITS (rule R38). -/
  qbits : Word
  /-- IDLE or BUSY, with the hidden state while BUSY (rules R34, R40). -/
  phase : Phase
  /-- The request on the random-source port (rules R24, R41); `none`: rng_req = 0. -/
  draw : Option Draw
  /-- The answer on the random-source port, not yet taken by the engine (rule R24); `none`: rng_ack = 0. -/
  ack : Option Nat
  /-- The outputs of the host bus port for the last transfer (rule R23). -/
  resp : Option Resp
  /-- The model fault recorded so far (rule R169). Never cleared. -/
  recorded : Option Fault
  /-- The model's own: the moves of the agents still to come (log entry 6). -/
  script : List Event
  /-- The model's own: the moves that come again and again once the script has run out, so that a run can
  hold endlessly many of them (rules R146, R204; log entry 6). -/
  cycle : List Event
  /-- The model's own: the counter the free values are applied to (log entries 5, 23). -/
  fresh : Nat
  deriving DecidableEq, Repr

/-- The state after power-on reset in a given configuration (rule R43). The X limbs are unwritten; their
value 0 is a DESIGN CHOICE, unsafe (log entry 3). -/
def State.resetOf (c : Config) : State :=
  { cfg := c
    x := Vector.replicate 8 (List.replicate c.nlimbs { val := 0, written := false })
    ie := false
    done := false
    prime := false
    ovr := false
    errcode := .noError
    cmdLast := 0
    iters := 50
    bits := 0
    pbits := 0
    qbits := 0
    phase := .idle
    draw := none
    ack := none
    resp := none
    recorded := none
    script := []
    cycle := []
    fresh := 0 }

/-- The machine right after reset (rule R43), in the configuration `Config.default`. -/
def State.reset : State := State.resetOf Config.default

end Sys2Proof.Machine
end

