-- ==== Sys2Proof/Machine/Ops.lean ====
section
/-! DEFINITION. The named operations over the state: the X register file, acceptance, completion, error,
reset, the draw laws, and the engine's run from one draw to the next. -/

namespace Sys2Proof.Machine

/-! ## Numbers -/

/-- `bitlength(x)`: the least k with x < 2^k (rule R10). -/
def bitLength (x : Nat) : Nat := if x = 0 then 0 else Nat.log2 x + 1

/-- The number that limbs stand for, limb 0 first (rule R8). -/
def limbsVal : XReg → Nat
  | [] => 0
  | l :: ls => l.val.toNat + 2 ^ 32 * limbsVal ls

/-- The `n` limbs of a number, limb 0 first, each written (rule R8: limb(k, i) <- v[32*i+31 : 32*i]). -/
def toLimbs : Nat → Nat → XReg
  | 0, _ => []
  | n + 1, v => { val := BitVec.ofNat 32 v, written := true } :: toLimbs n (v / 2 ^ 32)

/-! ## The X register file (rules R26 to R28) -/

theorem xname_lt (k : XName) : k.toNat < 8 := k.isLt

/-- The limbs of X[k]. -/
def State.xreg (s : State) (k : XName) : XReg := s.x[k.toNat]'(xname_lt k)

/-- X[k] replaced. -/
def State.setXReg (s : State) (k : XName) (v : XReg) : State :=
  { s with x := s.x.set k.toNat v (xname_lt k) }

/-- val(X[k]) (rule R8). -/
def State.xval (s : State) (k : XName) : Nat := limbsVal (s.xreg k)

/-- Every limb of X[k] has been written since reset (rule R28). -/
def State.xWritten (s : State) (k : XName) : Bool := (s.xreg k).all fun l => l.written

/-- Limb i of X[k]. A limb that the register does not hold is an unwritten 0: no run reaches it, since
the window maps it to a reserved offset (rule R52; log entry 20). -/
def State.limb (s : State) (k : XName) (i : Nat) : Limb :=
  (s.xreg k).getD i { val := 0, written := false }

/-- `X[k] <- v`: all NLIMBS limbs (rules R8, R95, R153). -/
def State.writeX (s : State) (k : XName) (v : Nat) : State := s.setXReg k (toLimbs s.cfg.nlimbs v)

/-- A host write of limb i of X[k], which is written from then on (rule R59). -/
def State.writeLimb (s : State) (k : XName) (i : Nat) (w : Word) : State :=
  s.setXReg k ((s.xreg k).set i { val := w, written := true })

/-- The fault bit UNWRITTEN_READ (rule R169), never cleared. -/
def State.recordUnwritten (s : State) : State := { s with recorded := some .unwrittenRead }

/-! ## Acceptance, completion, error -/

/-- STATUS.BUSY (rule R32). -/
def State.busy (s : State) : Bool :=
  match s.phase with
  | .idle => false
  | .busy _ => true

/-- Acceptance of command word c (rule R34): CMD is recorded, DONE and ERRCODE are cleared, and the phase
goes BUSY with the hidden state `r`, which holds the decoded command and its snapshot. -/
def State.accept (s : State) (c : Word) (r : Running) : State :=
  { s with cmdLast := c, done := false, errcode := .noError, phase := .busy r }

/-- Acceptance of an illegal word (rule R166): it reads no operand. -/
def State.acceptIllegal (s : State) (c : Word) : State := s.accept c .illegal

/-- A host write dropped because the engine is BUSY (rule R60). -/
def State.dropWrite (s : State) : State := { s with ovr := true }

/-- `complete()` (rule R162), after the command's results have been written. -/
def State.complete (s : State) : State :=
  { s with errcode := .noError, done := true, phase := .idle, draw := none, ack := none }

/-- `raise Error(code)` (rule R163): the one way a command ends with an error. It writes ERRCODE, DONE and
the phase, and drops the hidden working state. -/
def State.raiseError (s : State) (code : ErrCode) : State :=
  { s with errcode := code, done := true, phase := .idle, draw := none, ack := none }

/-! ## Random-source requests -/

/-- The law an answer must keep (rule R130). -/
def Draw.lawful : Draw → Nat → Bool
  | .below b, v => decide (v < b)
  | .bits k, v => decide (2 ^ (k - 1) ≤ v) && decide (v < 2 ^ k)

/-- A request the port can carry (rules R24, R130): 1 <= b < 2^W, or 1 <= k <= W. -/
def Draw.legal (c : Config) : Draw → Bool
  | .below b => decide (1 ≤ b) && decide (b < 2 ^ c.width)
  | .bits k => decide (1 ≤ k) && decide (k ≤ c.width)

/-- The request standing on the port, raised and not yet answered (rule R41). -/
def State.inFlight (s : State) : Option Draw :=
  match s.ack with
  | none => s.draw
  | some _ => none

/-- The random source answers v (rule R24). An answer with no request in flight is ignored
(rule R191). -/
def State.answered (s : State) (v : Nat) : State :=
  match s.inFlight with
  | some _ => { s with ack := some v }
  | none => s

/-- A number taken into the range of a request's law (rule R130): every lawful answer is the answer that
some number gives. -/
def Draw.freeAnswer : Draw → Nat → Nat
  | .below b, n => n % b
  | .bits k, n => 2 ^ (k - 1) + n % 2 ^ (k - 1)

/-- The random source answers with a free number that keeps the law of the request (rule R130); with no
request in flight nothing happens (rule R191). -/
def State.answeredFree (s : State) : State :=
  match s.inFlight with
  | some d => { s with ack := some (d.freeAnswer (Config.freeNumber s.fresh)), fresh := s.fresh + 1 }
  | none => s

/-! ## The engine's run from one draw to the next

The engine steps of rule R203 are the iterations of the pseudocode's loops. `Tick` is what one of them
does. A model may merge any run of them that makes no request (rules R40, R203), and `runTicks` does so. -/

/-- The outcome of one engine step of a command with working state `σ` and results `ρ`. -/
inductive Tick (σ ρ : Type) where
  /-- The pseudocode goes on. -/
  | go (w : σ)
  /-- It raises a request, and goes on from `w` with the answer. -/
  | ask (d : Draw) (w : σ)
  /-- It completes with a result. -/
  | ret (r : ρ)
  /-- It raises an error. -/
  | err (code : ErrCode)
  deriving DecidableEq, Repr

/-- At most `fuel` engine steps, up to the first that makes a request, completes or raises an error. -/
def runTicks {σ ρ : Type} (tick : σ → Tick σ ρ) : Nat → σ → Tick σ ρ
  | 0, w => .go w
  | fuel + 1, w =>
    match tick w with
    | .go w' => runTicks tick fuel w'
    | .ask d w' => .ask d w'
    | .ret r => .ret r
    | .err code => .err code

/-- The state after a merged run: the hidden state `put w`, the request on the port, the completion with
the results written by `write`, or the error. -/
def State.settle {σ ρ : Type} (put : σ → Running) (write : ρ → State → State) (s : State) :
    Tick σ ρ → State
  | .go w => { s with phase := .busy (put w) }
  | .ask d w => { s with phase := .busy (put w), draw := some d }
  | .ret r => (write r s).complete
  | .err code => s.raiseError code

/-- One merged engine step of a command that works on `w`. With a request on the port and no answer the
engine takes no step (rule R41); an answer is checked against its law (rule R130), and a lawful one is
taken by `resume`; then the pseudocode runs up to the next draw or its end. -/
def State.engineRun {σ ρ : Type} (tick : σ → Tick σ ρ) (resume : σ → Nat → σ) (budget : σ → Nat)
    (put : σ → Running) (write : ρ → State → State) (w : σ) (s : State) : State :=
  match s.draw with
  | none => s.settle put write (runTicks tick (budget w) w)
  | some d =>
    match s.ack with
    | none => s
    | some v =>
      if d.lawful v then
        State.settle put write { s with draw := none, ack := none }
          (runTicks tick (budget (resume w v)) (resume w v))
      else s.raiseError .rngLaw

/-! ## Reset and the output ports -/

/-- The X file after rst_n: every limb unwritten, its value a free word (rules R28, R190). -/
def resetX (c : Config) (fresh : Nat) : Vector XReg 8 :=
  Vector.ofFn fun k => (List.range c.nlimbs).map fun i =>
    { val := Config.freeWord (fresh + c.nlimbs * k.val + i), written := false }

/-- Reset in a run (rules R190, R191): every piece of state at its reset value, a running command and a
request dropped, the X limbs unwritten. The recorded model fault (log entry 4) and the moves to come
stay. -/
def State.resetPulse (s : State) : State :=
  { State.resetOf s.cfg with
    x := resetX s.cfg s.fresh
    recorded := s.recorded
    script := s.script
    cycle := s.cycle
    fresh := s.fresh + 8 * s.cfg.nlimbs }

/-- `irq = STATUS.DONE AND CTRL.IE` (rules R25, R170). -/
def State.irq (s : State) : Bool := s.done && s.ie

/-- The platform's interrupt number while `irq` is high (rule R171). -/
def State.irqLine (s : State) : Option Nat := if s.irq then some s.cfg.engineIrq else none

end Sys2Proof.Machine
end

