-- ==== Sys2Proof/Machine/Flags.lean ====
section
/-! DEFINITION. The STATUS flags and the constant registers as the host reads them (rules R29 to R32), and
the writes of STATUS and CTRL. -/

namespace Sys2Proof.Machine

/-- The code of an error (rule R161). -/
def ErrCode.code : ErrCode → BitVec 4
  | .noError => 0
  | .illegal => 1
  | .divzero => 2
  | .range => 3
  | .rngBound => 4
  | .rngLaw => 5

/-- STATUS.ERR, always equal to ERRCODE != 0 (rule R32). -/
def State.err (s : State) : Bool := s.errcode.code != 0

/-- The word read at STATUS (rule R32), highest field first. -/
def State.statusWord (s : State) : Word :=
  0#20 ++ s.errcode.code ++ 0#3 ++ BitVec.ofBool s.ovr ++ BitVec.ofBool s.prime ++ BitVec.ofBool s.err ++
    BitVec.ofBool s.done ++ BitVec.ofBool s.busy

/-- A write of v to STATUS, in both phases: write 1 to clear DONE and OVR (rules R32, R59, R60). -/
def State.writeStatus (s : State) (v : Word) : State :=
  { s with done := s.done && !v.getLsbD 1, ovr := s.ovr && !v.getLsbD 4 }

/-- A write of v to CTRL, in both phases (rules R31, R59, R60). -/
def State.writeCtrl (s : State) (v : Word) : State := { s with ie := v.getLsbD 0 }

/-- The word read at CTRL (rule R31). -/
def State.ctrlWord (s : State) : Word := 0#31 ++ BitVec.ofBool s.ie

/-- ID (rule R29). -/
def idWord : Word := 0x4E544531

/-- CFG (rule R30): VERSION, reserved, NXREG, NLIMBS, LIMB_BITS. -/
def cfgWord (c : Config) : Word := 1#8 ++ 0#4 ++ 8#4 ++ BitVec.ofNat 8 c.nlimbs ++ 32#8

end Sys2Proof.Machine
end

