-- ==== Sys2Proof/Machine/Bus.lean ====
section
/-! DEFINITION. The host register window (rules R50 to R60): address decoding, reads, and writes in both
phases. A write of CMD while IDLE is handed on as a command to accept. -/

namespace Sys2Proof.Machine

/-- A register of the window (rule R51). -/
inductive Slot where
  | id
  | cfg
  | ctrl
  | status
  | cmd
  | iters
  | bits
  | pbits
  | qbits
  | reserved
  /-- Limb i of X[k], i < NLIMBS (rule R52). -/
  | limb (k : XName) (i : Nat)
  deriving DecidableEq, Repr

/-- The address reaches the engine: it lies in the 0x2000 bytes at ENGINE_BASE (rules R50, R51). -/
def inWindow (c : Config) (addr : Nat) : Bool :=
  decide (c.engineBase ≤ addr) && decide (addr < c.engineBase + 0x2000)

/-- addr[12:0], all of the address that the engine looks at (rules R51, R53). -/
def portAddr (addr : Nat) : BitVec 13 := BitVec.ofNat 13 addr

/-- The register at a word-aligned byte offset of the window (rules R51, R52). -/
def slotAt (c : Config) (off : BitVec 13) : Slot :=
  let o := off.toNat
  if o < 0x1000 then
    match o with
    | 0x000 => .id
    | 0x004 => .cfg
    | 0x008 => .ctrl
    | 0x00C => .status
    | 0x010 => .cmd
    | 0x014 => .iters
    | 0x018 => .bits
    | 0x01C => .pbits
    | 0x020 => .qbits
    | _ => .reserved
  else
    let i := o % 0x200 / 4
    if i < c.nlimbs then .limb (BitVec.ofNat 3 ((o - 0x1000) / 0x200)) i else .reserved

/-- A transfer the engine performs: 32 bits wide and aligned (rules R54, R55). -/
def transferOk (be : BitVec 4) (off : BitVec 13) : Bool := be == 0xF#4 && off.extractLsb' 0 2 == 0#2

/-- A host read of limb i of X[k] (rules R28, R58): its value while IDLE, a free word while BUSY; an
unwritten limb records the model fault in both phases (log entries 4, 18). -/
def State.readLimb (s : State) (k : XName) (i : Nat) : Word × State :=
  let l := s.limb k i
  let s' := if l.written then s else s.recordUnwritten
  if s.busy then (Config.freeWord s.fresh, { s' with fresh := s.fresh + 1 }) else (l.val, s')

/-- `MemRead(off, 4)` (rule R58): the value, and the state, which only the model's own fields can leave
different. -/
def State.readSlot (s : State) : Slot → Word × State
  | .id => (idWord, s)
  | .cfg => (cfgWord s.cfg, s)
  | .ctrl => (s.ctrlWord, s)
  | .status => (s.statusWord, s)
  | .cmd => (s.cmdLast, s)
  | .iters => (s.iters, s)
  | .bits => (s.bits, s)
  | .pbits => (s.pbits, s)
  | .qbits => (s.qbits, s)
  | .reserved => (0, s)
  | .limb k i => s.readLimb k i

/-- `MemWrite(off, 4, v)` while BUSY (rule R60). -/
def State.writeBusy (s : State) (v : Word) : Slot → State
  | .ctrl => s.writeCtrl v
  | .status => s.writeStatus v
  | .cmd => s.dropWrite
  | .iters => s.dropWrite
  | .bits => s.dropWrite
  | .limb _ _ => s.dropWrite
  | .id => s
  | .cfg => s
  | .pbits => s
  | .qbits => s
  | .reserved => s

/-- `MemWrite(off, 4, v)` while IDLE (rule R59), but for CMD, which `busStep` hands on. -/
def State.writeIdle (s : State) (v : Word) : Slot → State
  | .ctrl => s.writeCtrl v
  | .status => s.writeStatus v
  | .iters => { s with iters := v }
  | .bits => { s with bits := v }
  | .limb k i => s.writeLimb k i v
  | .cmd => s
  | .id => s
  | .cfg => s
  | .pbits => s
  | .qbits => s
  | .reserved => s

/-- What a transfer leaves to do. -/
inductive BusOutcome where
  /-- Nothing: the transfer has had its whole effect. -/
  | settled (s : State)
  /-- The word c is to be accepted as a command (rule R34), from the state after the transfer. -/
  | command (c : Word) (s : State)
  deriving DecidableEq, Repr

/-- The transfer has ended with these outputs (rule R23). -/
def State.respond (s : State) (err : Bool) (rdata : Option Word) : State :=
  { s with resp := some { err := err, rdata := rdata } }

/-- A transfer at the engine's port, at offset `off` of the window. -/
def State.transfer (s : State) (write : Bool) (off : BitVec 13) (be : BitVec 4) (v : Word) : BusOutcome :=
  if transferOk be off then
    let slot := slotAt s.cfg off
    if write then
      if s.busy then .settled ((s.writeBusy v slot).respond false none)
      else if slot = .cmd then .command v (s.respond false none)
      else .settled ((s.writeIdle v slot).respond false none)
    else
      let (r, s') := s.readSlot slot
      .settled (s'.respond false (some r))
  else .settled (s.respond true (if write then none else some 0))

/-- One host access. One outside the window never reaches the engine (rule R51; log entry 15). -/
def State.busStep (s : State) (a : Access) : BusOutcome :=
  if inWindow s.cfg a.addr then s.transfer a.write (portAddr a.addr) a.be a.wdata else .settled s

end Sys2Proof.Machine
end

