-- ==== Sys2Proof/Machine/Operands.lean ====
section
/-! DEFINITION. The operand values a command reads, taken at acceptance (rules R34, R65, R75). -/

namespace Sys2Proof.Machine

/-- The snapshot of X registers reaches an unwritten limb: the fault bit is recorded (rules R28, R169). -/
def State.markSnapshot (s : State) (ks : List XName) : State :=
  if ks.all fun k => s.xWritten k then s else s.recordUnwritten

/-- The register that BSEL names (rules R74, R141). -/
def State.bitsOf (s : State) : BitSel → Word
  | .bits => s.bits
  | .pbits => s.pbits
  | .qbits => s.qbits

/-- K: the round count of ISPRIME and PRIMEGEN (rule R35). -/
def State.rounds (s : State) : Nat := s.iters.toNat

end Sys2Proof.Machine
end

