-- ==== Sys2Proof/Machine/Modexp.lean ====
section
/-! DEFINITION. POWMOD: modular exponentiation (rules R90 to R99). Its loop also computes the witness
power of ISPRIME (rule R114). -/

namespace Sys2Proof.Machine

/-- The loop's variables before its first iteration: v = 1, p = B unreduced, e = E (rules R90, R96). -/
def powStart (b e : Nat) : PowLoop := { v := 1, p := b, e := e }

/-- One iteration of the loop of rule R90: multiply when the bit is set, always square, halve. -/
def powIter (m : Nat) (l : PowLoop) : PowLoop :=
  { v := if l.e % 2 = 1 then l.v * l.p % m else l.v, p := l.p * l.p % m, e := l.e / 2 }

/-- One engine step of POWMOD (rule R90): the check of M (rule R92), then an iteration for each bit of the
exponent (rule R91), then the result v. -/
def powmodTick (w : PowWork) : Tick PowWork Nat :=
  match w.loop with
  | none => if w.m = 0 then .err .divzero else .go { w with loop := some (powStart w.b w.e) }
  | some l => if l.e = 0 then .ret l.v else .go { w with loop := some (powIter w.m l) }

/-- Engine steps enough for POWMOD to end: the check, one for each exponent bit (rule R91), the result. -/
def powmodBudget (w : PowWork) : Nat :=
  2 + match w.loop with
    | none => bitLength w.e
    | some l => bitLength l.e

/-- POWMOD makes no request (rule R99), so an answer leaves it as it is. -/
def powmodResume (w : PowWork) (_v : Nat) : PowWork := w

/-- The snapshot of POWMOD: B, E and M (rule R90). -/
def powmodSnapshot (ra rb rc : XName) (s : State) : PowWork :=
  { b := s.xval ra, e := s.xval rb, m := s.xval rc, loop := none }

/-- POWMOD Xd, Xa, Xb, Xc (rule R90). While IDLE: the acceptance of its word, with B, E and M snapshotted.
While BUSY with this command: the engine runs it to its end. While BUSY with another: the word is
dropped (rule R60). -/
def execPowmod (rd ra rb rc : XName) (s : State) : Host.Outcome State Fault Refusal :=
  match s.phase with
  | .idle =>
    .next ((s.markSnapshot [ra, rb, rc]).accept (encode (.powmod rd ra rb rc))
      (.powmod rd ra rb rc (powmodSnapshot ra rb rc s)))
  | .busy (.powmod d a b c w) =>
    if d = rd ∧ a = ra ∧ b = rb ∧ c = rc then
      .next (s.engineRun powmodTick powmodResume powmodBudget (.powmod rd ra rb rc)
        (fun v t => t.writeX rd v) w)
    else .next s.dropWrite
  | .busy _ => .next s.dropWrite

end Sys2Proof.Machine
end

