-- ==== Sys2Proof/Machine/Primality.lean ====
section
/-! DEFINITION. ISPRIME: the Miller-Rabin probable-prime test (rules R110 to R126), whose procedure mr is
also the candidate test of PRIMEGEN (rule R145). -/

namespace Sys2Proof.Machine

/-- mr(N, K) before its first engine step. -/
def mrStart (n k : Nat) : MrWork := { n := n, k := k, s := 0, r := 0, round := 0, pt := .start }

/-- The round has proved nothing: the next one starts (rules R113, R115). -/
def mrNextRound (w : MrWork) : MrWork := { w with round := w.round + 1, pt := .round }

/-- The bound of the witness draw, over the integers: N - MR_BOUND_OFFSET (rule R119). -/
def witnessBound (c : Config) (n : Nat) : Int := (n : Int) - (c.mrBoundOffset.value : Int)

/-- The tests of rule R111, in order, then the start of the decomposition of rule R112. -/
def mrEarly (w : MrWork) : Tick MrWork Bool :=
  if w.n < 2 then .ret false
  else if w.n = 2 then .ret true
  else if w.n % 2 = 0 then .ret false
  else .go { w with r := w.n - 1, s := 0, pt := .halve }

/-- One step of the halving loop of rule R112, or the start of round 1. -/
def mrHalve (w : MrWork) : Tick MrWork Bool :=
  if w.r % 2 = 0 then .go { w with r := w.r / 2, s := w.s + 1 }
  else .go { w with round := 1, pt := .round }

/-- The head of a round: the end after K rounds (rule R118), the check of the bound (rules R120, R134),
the request for a witness (rule R119). -/
def mrRound (c : Config) (w : MrWork) : Tick MrWork Bool :=
  if w.round > w.k then .ret true
  else if witnessBound c w.n ≤ 0 then .err .rngBound
  else .ask (.below (witnessBound c w.n).toNat) w

/-- The round test of rule R115 on the witness power y. -/
def mrTest (w : MrWork) (y : Nat) : Tick MrWork Bool :=
  if y = 1 ∨ y = w.n - 1 then .go (mrNextRound w) else .go { w with pt := .square y 1 }

/-- One step of the witness power (rule R114), or the round test once the exponent is used up. -/
def mrPower (w : MrWork) (l : PowLoop) : Tick MrWork Bool :=
  if l.e = 0 then mrTest w l.v else .go { w with pt := .power (powIter w.n l) }

/-- One pass of the squaring loop (rule R116), whose exit at y = N-1 stands before the squaring and is
taken only at MR_EARLY_EXIT = 1; or the test after the loop (rule R115). -/
def mrSquare (c : Config) (w : MrWork) (y j : Nat) : Tick MrWork Bool :=
  if j < w.s ∧ ¬(c.mrEarlyExit = true ∧ y = w.n - 1) then
    if y * y % w.n = 1 then .ret false else .go { w with pt := .square (y * y % w.n) (j + 1) }
  else if y ≠ w.n - 1 then .ret false
  else .go (mrNextRound w)

/-- One engine step of mr (rule R110). -/
def mrTick (c : Config) (w : MrWork) : Tick MrWork Bool :=
  match w.pt with
  | .start => mrEarly w
  | .halve => mrHalve w
  | .round => mrRound c w
  | .power l => mrPower w l
  | .square y j => mrSquare c w y j

/-- The answer v of the witness draw: a = v + 2 (rule R119), and the power a^r mod N starts
(rule R114). Only the head of a round has a request standing. -/
def mrResume (w : MrWork) (v : Nat) : MrWork :=
  match w.pt with
  | .round => { w with pt := .power (powStart (v + 2) w.r) }
  | .start => w
  | .halve => w
  | .power _ => w
  | .square _ _ => w

/-- Engine steps enough for mr to reach its next request or its end: the halvings, the exponent's bits,
the squarings, and the steps between them (rules R112, R91, R116). -/
def mrBudget (w : MrWork) : Nat := bitLength w.n + bitLength w.r + w.s + 6

/-- STATUS.PRIME <- res (rule R123). -/
def State.writePrime (s : State) (res : Bool) : State := { s with prime := res }

/-- ISPRIME Xa (rule R110). While IDLE: the acceptance of its word, with N and K snapshotted. While BUSY
with this command: the engine runs it to its next witness draw or its end. While BUSY with another: the
word is dropped (rule R60). -/
def execIsprime (ra : XName) (s : State) : Host.Outcome State Fault Refusal :=
  match s.phase with
  | .idle =>
    .next ((s.markSnapshot [ra]).accept (encode (.isprime ra))
      (.isprime ra (mrStart (s.xval ra) s.rounds)))
  | .busy (.isprime a w) =>
    if a = ra then
      .next (s.engineRun (mrTick s.cfg) mrResume mrBudget (.isprime ra) (fun res t => t.writePrime res) w)
    else .next s.dropWrite
  | .busy _ => .next s.dropWrite

end Sys2Proof.Machine
end

