-- ==== Sys2Proof/Machine/Primegen.lean ====
section
/-! DEFINITION. SPLIT: the prime bit-length split (rules R135 to R138); PRIMEGEN: the candidate rejection
loop (rules R140 to R153). -/

namespace Sys2Proof.Machine

/-! ## SPLIT -/

/-- pbits_raw (rule R135): rr + h2, with h2 computed from h1. -/
def splitP (nbits rr : Nat) : Nat := rr + nbits / 2 / 2

/-- qbits_raw (rule R135): 4 * h2 - pbits_raw, never negative for a lawful rr (rule R137). -/
def splitQ (nbits rr : Nat) : Nat := 4 * (nbits / 2 / 2) - splitP nbits rr

/-- One engine step of SPLIT (rule R135): the check of h1 (rule R136), the request, the results. -/
def splitTick (w : SplitWork) : Tick SplitWork (Nat × Nat) :=
  match w.rr with
  | none => if w.nbits / 2 = 0 then .err .rngBound else .ask (.below (w.nbits / 2)) w
  | some rr => .ret (splitP w.nbits rr, splitQ w.nbits rr)

/-- The answer of the draw is rr (rule R135). -/
def splitResume (w : SplitWork) (v : Nat) : SplitWork := { w with rr := some v }

/-- Each run of SPLIT between draws is one engine step. -/
def splitBudget (_w : SplitWork) : Nat := 1

/-- PBITS and QBITS (rules R37, R38, R135); 32 bits hold every lawful value (rule R137). -/
def State.writeSplit (s : State) (r : Nat × Nat) : State :=
  { s with pbits := BitVec.ofNat 32 r.1, qbits := BitVec.ofNat 32 r.2 }

/-- SPLIT (rule R135). While IDLE: the acceptance of its word, with nbits snapshotted. While BUSY with
SPLIT: the engine runs it to its draw or its end. While BUSY with another command: the word is dropped
(rule R60). -/
def execSplit (s : State) : Host.Outcome State Fault Refusal :=
  match s.phase with
  | .idle => .next (s.accept (encode .split) (.split { nbits := s.bits.toNat, rr := none }))
  | .busy (.split w) =>
    .next (s.engineRun splitTick splitResume splitBudget .split (fun r t => t.writeSplit r) w)
  | .busy _ => .next s.dropWrite

/-! ## PRIMEGEN -/

/-- One engine step inside the test of a candidate (rule R145), its result turned into PRIMEGEN's: an
accepted candidate is the result, and a rejected one leads to the next draw (rules R140, R146). -/
def genOfMr (w : GenWork) (n : Nat) : Tick MrWork Bool → Tick GenWork Nat
  | .go m => .go { w with pt := .test m }
  | .ask d m => .ask d { w with pt := .test m }
  | .ret true => .ret n
  | .ret false => .go { w with pt := .draw }
  | .err code => .err code

/-- One engine step of PRIMEGEN (rule R140): the range check of bits + 1 against W (rule R143), the
request for a candidate (rule R144), the candidate's test (rule R145). -/
def genTick (c : Config) (w : GenWork) : Tick GenWork Nat :=
  match w.pt with
  | .check => if w.bits + 1 > c.width then .err .range else .go { w with pt := .draw }
  | .draw => .ask (.bits (w.bits + 1)) w
  | .test m => genOfMr w m.n (mrTick c m)

/-- An answer is the candidate (rule R144), or the witness of a round of its test (rule R145). -/
def genResume (w : GenWork) (v : Nat) : GenWork :=
  match w.pt with
  | .check => w
  | .draw => { w with pt := .test (mrStart v w.k) }
  | .test m => { w with pt := .test (mrResume m v) }

/-- Engine steps enough for PRIMEGEN to reach its next request or its end. -/
def genBudget (w : GenWork) : Nat :=
  2 + match w.pt with
    | .check => 0
    | .draw => 0
    | .test m => mrBudget m

/-- PRIMEGEN Xd, BITS|PBITS|QBITS (rule R140). While IDLE: the acceptance of its word, with bits and K
snapshotted (rule R141). While BUSY with this command: the engine runs it to its next draw or its end.
While BUSY with another: the word is dropped (rule R60). -/
def execPrimegen (rd : XName) (sel : BitSel) (s : State) : Host.Outcome State Fault Refusal :=
  match s.phase with
  | .idle =>
    .next (s.accept (encode (.primegen rd sel))
      (.primegen rd sel { bits := (s.bitsOf sel).toNat, k := s.rounds, pt := .check }))
  | .busy (.primegen d b w) =>
    if d = rd ∧ b = sel then
      .next (s.engineRun (genTick s.cfg) genResume genBudget (.primegen rd sel)
        (fun v t => t.writeX rd v) w)
    else .next s.dropWrite
  | .busy _ => .next s.dropWrite

end Sys2Proof.Machine
end

