-- ==== Sys2Proof/Machine/Dispatch.lean ====
section
/-! DEFINITION. The meaning of each command: one arm per constructor of `Instr`. -/

namespace Sys2Proof.Machine

def exec (i : Instr) (s : State) : Host.Outcome State Fault Refusal :=
  match i with
  | .powmod rd ra rb rc => Sys2Proof.Machine.execPowmod rd ra rb rc s
  | .isprime ra => Sys2Proof.Machine.execIsprime ra s
  | .primegen rd sel => Sys2Proof.Machine.execPrimegen rd sel s
  | .split => Sys2Proof.Machine.execSplit s

end Sys2Proof.Machine
end

