-- ==== Sys2Proof/Machine/Command.lean ====
section
/-! DEFINITION. How commands come to run: acceptance of a command word (rule R34), the engine's step
(rules R40, R203), and the moves of the agents (rule R13). -/

namespace Sys2Proof.Machine

/-- The decoded command that runs (rule R40); `none` for an illegal word. -/
def Running.command : Running → Option Instr
  | .illegal => none
  | .powmod rd ra rb rc _ => some (.powmod rd ra rb rc)
  | .isprime ra _ => some (.isprime ra)
  | .primegen rd sel _ => some (.primegen rd sel)
  | .split _ => some .split

/-- Acceptance of command word c, in a state whose engine is IDLE (rule R34): the word is decoded
(rule R79); the command's own meaning takes its snapshot; an illegal word is accepted too (rule R166). -/
def acceptWord (c : Word) (s : State) : Host.Outcome State Fault Refusal :=
  match decode c with
  | .cmd i => exec i s
  | .illegal => .next (s.acceptIllegal c)

/-- The engine's step: at rest while IDLE (rule R180); while BUSY, the meaning of the command that runs,
or the completion of an illegal word (rule R166). -/
def engineStep (s : State) : Host.Outcome State Fault Refusal :=
  match s.phase with
  | .idle => .next s
  | .busy r =>
    match r.command with
    | some i => exec i s
    | none => .next (s.raiseError .illegal)

/-- One host access, with the acceptance of a command word written to CMD while IDLE (rules R33, R59). -/
def busEvent (a : Access) (s : State) : Host.Outcome State Fault Refusal :=
  match s.busStep a with
  | .settled s' => .next s'
  | .command c s' => acceptWord c s'

/-- One move of an agent (rule R13) or of the reset line (rule R190). -/
def handleEvent (e : Event) (s : State) : Host.Outcome State Fault Refusal :=
  match e with
  | .bus a => busEvent a s
  | .answer v => .next (s.answered v)
  | .freeAnswer => .next s.answeredFree
  | .engine => engineStep s
  | .reset => .next s.resetPulse

/-- The move whose turn it is, and the script after it: the first of the script; when the script has run
out, the first of the cycle, whose rest becomes the script; with neither, the engine's step (log
entry 6). -/
def State.turn (s : State) : Event × List Event :=
  match s.script with
  | e :: es => (e, es)
  | [] =>
    match s.cycle with
    | e :: es => (e, es)
    | [] => (.engine, [])

/-- The state with the move whose turn it is taken off the script. -/
def State.afterTurn (s : State) : State := { s with script := s.turn.2 }

/-- The next move of an agent (rule R13). -/
def nextMove (s : State) : Host.Outcome State Fault Refusal := handleEvent s.turn.1 s.afterTurn

/-- The state with command word c accepted and the engine to move next: what the accepted host write of c
to CMD leaves (log entry 9). -/
def State.withCommand (s : State) (c : Word) : State :=
  match acceptWord c { s with phase := .idle, draw := none, ack := none, script := [], cycle := [] } with
  | .next t => t
  | .fault _ => s
  | .refused _ => s

end Sys2Proof.Machine
end

