-- ==== Sys2Proof/Machine/Step.lean ====
section
/-! DEFINITION. One step of the machine, and the state in which a given command word runs next. -/

namespace Sys2Proof.Machine

/-- One step: the next move of an agent, in a configuration of this hardware (rules R6, R169). -/
def step (s : State) : Host.Outcome State Fault Refusal :=
  if s.cfg.valid then nextMove s else .refused .badConfig

/-- The state with the command word of a row of spec/opcode_table.json accepted, so that the next step is
its engine step. The engine fetches nothing (rule R22): the accepted host write to CMD stands for the
fetch (log entry 9). -/
def State.withFetchWord (s : State) (nbits w : Nat) : State := s.withCommand (tableWord nbits w)

end Sys2Proof.Machine
end

