-- ==== Sys2Proof/Machine/HostProgram.lean ====
section
/-! DEFINITION. The host's pseudo-operations (rule R81) as the transfers they expand to. They are no
operations of the engine, which sees only the transfers. -/

namespace Sys2Proof.Machine

/-- `WR off, v`: a 32-bit write at byte offset `off` of the window (rules R9, R54). -/
def hostWrite (c : Config) (off : Nat) (v : Word) : Event :=
  .bus { write := true, addr := c.engineBase + off, be := 0xF, wdata := v }

/-- `RD off`: a 32-bit read at byte offset `off` of the window (rules R9, R54). -/
def hostRead (c : Config) (off : Nat) : Event :=
  .bus { write := false, addr := c.engineBase + off, be := 0xF, wdata := 0 }

/-- The byte offset of limb i of X[k] (rule R52). -/
def limbOffset (k : XName) (i : Nat) : Nat := 0x1000 + 0x200 * k.toNat + 4 * i

/-- `LDX Xk, v` (rule R81): a write of every limb. -/
def ldx (c : Config) (k : XName) (v : Nat) : List Event :=
  (List.range c.nlimbs).map fun i => hostWrite c (limbOffset k i) (BitVec.ofNat 32 (v / 2 ^ (32 * i)))

/-- `STX Xk` (rule R81): a read of every limb. -/
def stx (c : Config) (k : XName) : List Event :=
  (List.range c.nlimbs).map fun i => hostRead c (limbOffset k i)

/-- `CMD <line>` (rule R81): the write of the command's word to CMD. -/
def hostCommand (c : Config) (i : Instr) : Event := hostWrite c 0x010 (encode i)

/-- `WAIT` (rule R81) with a given number of polls of STATUS; how many polls a host makes, and where the
engine's steps fall between them, is the schedule's. -/
def hostWait (c : Config) (polls : Nat) : List Event := List.replicate polls (hostRead c 0x00C)

/-- `ACK` (rule R81): clear DONE and OVR. -/
def hostAck (c : Config) : Event := hostWrite c 0x00C 0x00000012

end Sys2Proof.Machine
end

