-- ==== Sys2Proof/Safety.lean ====
section
/-! DEFINITION. The terms in which claims about the machine are stated: the mathematical meaning of POWMOD
and of a Miller-Rabin round, the invariant that every step keeps, and the end of a run. -/

namespace Sys2Proof.Machine

/-! ## What the commands compute -/

/-- The value of POWMOD for M >= 1 (rules R93, R98): B^E mod M, and the unreduced 1 for E = 0. -/
def powmodLaw (b e m : Nat) : Nat := if e = 0 then 1 else b ^ e % m

/-- The squaring loop of rule R116 with `left` squarings to go and the test after it (rule R115): true
when the round proves nothing. -/
def squaresPass (earlyExit : Bool) (n : Nat) : Nat → Nat → Bool
  | 0, y => decide (y = n - 1)
  | left + 1, y =>
    if earlyExit = true ∧ y = n - 1 then true
    else if y * y % n = 1 then false
    else squaresPass earlyExit n left (y * y % n)

/-- The round with witness a proves nothing about N (rules R114 to R116), where N-1 = 2^s * r. -/
def roundPasses (earlyExit : Bool) (n s r a : Nat) : Bool :=
  let y := powmodLaw a r n
  y == 1 || y == n - 1 || squaresPass earlyExit n (s - 1) y

/-- The next thing mr does after a round that proves nothing (rules R113, R118, R119): it ends with 1
after K rounds, or requests the witness of the next round. -/
def mrAfterPass (c : Config) (w : MrWork) : Tick MrWork Bool :=
  if w.round = w.k then .ret true
  else .ask (.below (witnessBound c w.n).toNat) { w with round := w.round + 1, pt := .round }

/-! ## The invariant -/

/-- The decomposition of rule R112: N odd, N >= 3, N-1 = 2^s * r, r odd, s >= 1. -/
def MrWork.Decomposed (w : MrWork) : Prop :=
  3 ≤ w.n ∧ w.n % 2 = 1 ∧ 2 ^ w.s * w.r = w.n - 1 ∧ w.r % 2 = 1 ∧ 1 ≤ w.s

/-- The invariant of the power loop (rule R98). -/
def PowLoop.Ok (b e m : Nat) (l : PowLoop) : Prop :=
  l.v * l.p ^ l.e % m = b ^ e % m ∧ l.e ≤ e ∧ (l.e = 0 → l.v = powmodLaw b e m)

/-- The state of a running round of mr: the decomposition stands and the round is one of the K. -/
def MrWork.InRound (w : MrWork) : Prop := w.Decomposed ∧ 5 ≤ w.n ∧ 1 ≤ w.round ∧ w.round ≤ w.k

/-- The invariant of mr at work (rules R110 to R116). The witness a lies in [2, N-2] (rule R119). -/
def MrWork.Ok (c : Config) (w : MrWork) : Prop :=
  w.n < 2 ^ c.width ∧ w.k < 2 ^ 32 ∧
  match w.pt with
  | .start => True
  | .halve => 3 ≤ w.n ∧ w.n % 2 = 1 ∧ 2 ^ w.s * w.r = w.n - 1
  | .round => w.Decomposed ∧ 1 ≤ w.round ∧ w.round ≤ w.k + 1
  | .power l => w.InRound ∧ ∃ a, 2 ≤ a ∧ a ≤ w.n - 2 ∧ l.Ok a w.r w.n
  | .square y j => w.InRound ∧ 1 ≤ j ∧ j ≤ w.s ∧ y ≠ 1 ∧
      ∃ a, 2 ≤ a ∧ a ≤ w.n - 2 ∧ y = a ^ (2 ^ (j - 1) * w.r) % w.n

/-- The request that stands while mr works: none, or the witness draw of the round it is at (rules R117,
R119, R134). -/
def MrWork.DrawOk (c : Config) (w : MrWork) (d : Option Draw) : Prop :=
  d = none ∨ (w.pt = .round ∧ w.round ≤ w.k ∧ 0 < witnessBound c w.n ∧
    d = some (.below (witnessBound c w.n).toNat))

/-- The invariant of the command that runs, with the request `d` on the port. -/
def Running.Ok (c : Config) (d : Option Draw) : Running → Prop
  | .illegal => d = none
  | .powmod _ _ _ _ w => d = none ∧ w.b < 2 ^ c.width ∧ w.e < 2 ^ c.width ∧ w.m < 2 ^ c.width ∧
      ∀ l, w.loop = some l → w.m ≠ 0 ∧ l.Ok w.b w.e w.m
  | .isprime _ w => w.Ok c ∧ w.DrawOk c d
  | .primegen _ _ w => w.bits < 2 ^ 32 ∧ w.k < 2 ^ 32 ∧
      match w.pt with
      | .check => d = none
      | .draw => w.bits + 1 ≤ c.width ∧ (d = none ∨ d = some (.bits (w.bits + 1)))
      | .test m => w.bits + 1 ≤ c.width ∧ 2 ^ w.bits ≤ m.n ∧ m.n < 2 ^ (w.bits + 1) ∧ m.k = w.k ∧
          m.Ok c ∧ m.DrawOk c d
  | .split w => w.nbits < 2 ^ 32 ∧
      match w.rr with
      | none => d = none ∨ (1 ≤ w.nbits / 2 ∧ d = some (.below (w.nbits / 2)))
      | some rr => d = none ∧ rr < w.nbits / 2

/-- The invariant of the machine, which every step keeps. -/
structure State.Inv (s : State) : Prop where
  /-- A configuration of this hardware (rule R6). -/
  cfgValid : s.cfg.valid = true
  /-- Every X register holds exactly NLIMBS limbs (rule R26). -/
  xLimbs : ∀ k : XName, (s.xreg k).length = s.cfg.nlimbs
  /-- Only requests the port can carry are made (rule R24). -/
  drawLegal : ∀ d, s.draw = some d → d.legal s.cfg = true
  /-- No request while IDLE (rules R43, R162). -/
  idleNoDraw : s.phase = .idle → s.draw = none
  /-- An answer is on the port only for a request (rule R24). -/
  ackOfDraw : s.draw = none → s.ack = none
  /-- The command that runs is where its pseudocode can be (rule R40). -/
  runningOk : ∀ r, s.phase = .busy r → r.Ok s.cfg s.draw

/-! ## The window -/

/-- A reserved offset of the window: 0x024 to 0xFFF of the register page (rule R39), and the limbs i with
NLIMBS <= i <= 127 of an X register (rule R52). -/
def ReservedOffset (c : Config) (off : Nat) : Prop :=
  (0x024 ≤ off ∧ off < 0x1000 ∧ off % 4 = 0) ∨
  ∃ (k : XName) (i : Nat), c.nlimbs ≤ i ∧ i < 128 ∧ off = limbOffset k i

/-- The offsets whose writes are dropped while BUSY (rule R60). -/
def DroppedSlot : Slot → Prop
  | .cmd => True
  | .iters => True
  | .bits => True
  | .limb _ _ => True
  | .id => False
  | .cfg => False
  | .ctrl => False
  | .status => False
  | .pbits => False
  | .qbits => False
  | .reserved => False

/-- PRIMEGEN with bits = 0 at work, with a random source that keeps the law (rule R147): it has not drawn
yet or waits for a candidate, and an answer on the port is 1. -/
def ZeroBitsHang (s : State) : Prop :=
  ∃ rd sel w, s.phase = .busy (.primegen rd sel w) ∧ w.bits = 0 ∧ (w.pt = .check ∨ w.pt = .draw) ∧
    (s.draw = none ∨ s.draw = some (.bits 1)) ∧ ∀ v, s.ack = some v → v = 1

/-! ## The end of a run -/

/-- A move that a final state does not have to come: an access of the host (rule R205), or a reset. That a
reset of the line rst_n counts as the host's move is the model's choice: rule R13 gives the line to no
agent, and rule R205 speaks of the host's accesses only. DESIGN CHOICE, unsafe (log entry 24). -/
def Event.fromHost : Event → Bool
  | .bus _ => true
  | .reset => true
  | .answer _ => false
  | .freeAnswer => false
  | .engine => false

/-- A host program's run has ended (rule R205): the host makes no more accesses, the engine is IDLE with no
draw in flight, and no model fault has been recorded, since a fault bit says that the state is never
final (spec/93_implementation_defined.md; log entry 4). No reset is to come either, which is the model's
choice (log entry 24). Moves of the other two agents may still be to come, and find nothing to do. -/
def State.final (s : State) : Bool :=
  (s.script ++ s.cycle).all (fun e => !e.fromHost) && !s.busy && s.draw.isNone && s.recorded.isNone

end Sys2Proof.Machine
end

