-- ==== Sys2Proof/Certificates/Slice0/Obligations.lean ====
section
/-! DEFINITION. What is claimed of the machine, rule by rule. A statement holds for every configuration,
every state of the X file and every answer of the random source that its hypotheses allow. -/

open Sys2Proof Sys2Proof.Machine

/-! ## Encoding (rules R70 to R82) -/

/-- Rules R78, R79: every command is decoded from its own word, with every operand at every value. -/
def Obligations.EncodedCommandsDecodeBack : Prop :=
  ∀ i : Instr, decode (encode i) = .cmd i

/-- Rules R70, R79: a command has one word only, so no bit of a word is dropped by the decoder. -/
def Obligations.DecodedWordsEncodeBack : Prop :=
  ∀ (c : Word) (i : Instr), decode c = .cmd i → encode i = c

/-- Rules R76, R77: the words the decoder calls ILLEGAL are those that the field table makes illegal. -/
def Obligations.IllegalWordsAreThoseOfTheFieldTable : Prop :=
  ∀ c : Word, decode c = .illegal ↔ wordLegal c = false

/-- Rule R78: a word selects a command exactly when its match and mask test holds, with the fields at the
bits of the pattern. -/
def Obligations.MatchAndMaskSelectTheCommand : Prop :=
  ∀ c : Word,
    (c &&& 0xFF8888FF#32 = 0x00000001#32 ↔ decode c = .cmd (.powmod (c.extractLsb' 8 3)
      (c.extractLsb' 12 3) (c.extractLsb' 16 3) (c.extractLsb' 20 3))) ∧
    (c &&& 0xFFFF8FFF#32 = 0x00000002#32 ↔ decode c = .cmd (.isprime (c.extractLsb' 12 3))) ∧
    (c &&& 0xFCFFF8FF#32 = 0x00000003#32 ∧ c.extractLsb' 24 2 ≠ 3#2 ↔
      ∃ sel : BitSel, sel.code = c.extractLsb' 24 2 ∧
        decode c = .cmd (.primegen (c.extractLsb' 8 3) sel)) ∧
    (c &&& 0xFFFFFFFF#32 = 0x00000004#32 ↔ decode c = .cmd .split)

/-- Rule R82: the spec's own encoding examples. -/
def Obligations.SpecEncodingExamplesDecode : Prop :=
  decode 0x00210301 = .cmd (.powmod 3 0 1 2) ∧
  decode 0x00777701 = .cmd (.powmod 7 7 7 7) ∧
  decode 0x00000001 = .cmd (.powmod 0 0 0 0) ∧
  decode 0x00000002 = .cmd (.isprime 0) ∧
  decode 0x00005002 = .cmd (.isprime 5) ∧
  decode 0x00000203 = .cmd (.primegen 2 .bits) ∧
  decode 0x01000403 = .cmd (.primegen 4 .pbits) ∧
  decode 0x02000503 = .cmd (.primegen 5 .qbits) ∧
  decode 0x00000004 = .cmd .split ∧
  decode 0x03000103 = .illegal ∧
  decode 0x00000000 = .illegal ∧
  decode 0x00000102 = .illegal

/-! ## Reset (rules R43, R190 to R193) -/

/-- Rule R43: the reset value of every piece of state, in every configuration. The limbs are stated to be
unwritten only; their value is the model's choice (log entry 3) and nothing here rests on it. -/
def Obligations.ResetValues : Prop :=
  ∀ c : Config,
    let s := State.resetOf c
    (∀ k i, (s.limb k i).written = false) ∧
    (s.readSlot .id).1 = 0x4E544531 ∧ (s.readSlot .cfg).1 = cfgWord c ∧ (s.readSlot .ctrl).1 = 0 ∧
    (s.readSlot .status).1 = 0 ∧ (s.readSlot .cmd).1 = 0 ∧ (s.readSlot .iters).1 = 50 ∧
    (s.readSlot .bits).1 = 0 ∧ (s.readSlot .pbits).1 = 0 ∧ (s.readSlot .qbits).1 = 0 ∧
    s.phase = .idle ∧ s.draw = none ∧ s.irq = false

/-- Rules R190, R191: rst_n in a run abandons the command and the request, puts every register at its
reset value and leaves every limb unwritten; an answer that comes after it is ignored. That rst_n low and
high again is one step is the model's choice (log entry 14), and so is that the recorded model fault
outlives it (log entry 4). -/
def Obligations.ResetAbandonsTheCommand : Prop :=
  ∀ (s : State) (es : List Event), s.cfg.valid = true →
    ∃ t, step { s with script := .reset :: es } = .next t ∧
      t.phase = .idle ∧ t.draw = none ∧ t.ack = none ∧ t.done = false ∧ t.errcode = .noError ∧
      t.prime = false ∧ t.ovr = false ∧ t.ie = false ∧ t.cmdLast = 0 ∧ t.iters = 50 ∧ t.bits = 0 ∧
      t.pbits = 0 ∧ t.qbits = 0 ∧ (∀ k i, (t.limb k i).written = false) ∧ t.cfg = s.cfg ∧
      t.recorded = s.recorded ∧ t.script = es ∧ t.cycle = s.cycle ∧ (∀ v, t.answered v = t) ∧
      t.answeredFree = t

/-- The invariant holds at reset, in every configuration of this hardware. -/
def Obligations.ResetMeetsTheInvariant : Prop :=
  ∀ c : Config, c.valid = true → (State.resetOf c).Inv

/-! ## The register window (rules R50 to R60) -/

/-- Rules R54, R55: a transfer with a partial byte enable or a misaligned address ends with err = 1, a
read with rdata = 0, and has no effect. -/
def Obligations.BadTransfersEndWithErr : Prop :=
  ∀ (s : State) (a : Access) (es : List Event), s.cfg.valid = true → inWindow s.cfg a.addr = true →
    a.be ≠ 0xF#4 ∨ a.addr % 4 ≠ 0 →
    step { s with script := .bus a :: es } =
      .next { s with script := es, resp := some { err := true, rdata := if a.write then none else some 0 } }

/-- Rule R51: an access outside the window never reaches the engine. That its step changes nothing else is
the model's choice (log entry 15). -/
def Obligations.AccessesOutsideTheWindowDoNothing : Prop :=
  ∀ (s : State) (a : Access) (es : List Event), s.cfg.valid = true →
    a.addr < s.cfg.engineBase ∨ s.cfg.engineBase + 0x2000 ≤ a.addr →
    step { s with script := .bus a :: es } = .next { s with script := es }

/-- Rule R58: in both phases a read of a scalar register returns its current value and changes no
state. -/
def Obligations.ScalarReadsReturnTheRegister : Prop :=
  ∀ (s : State) (es : List Event) (off : Nat) (v : Word), s.cfg.valid = true →
    (off, v) ∈ [(0x000, 0x4E544531#32), (0x004, cfgWord s.cfg), (0x008, s.ctrlWord), (0x00C, s.statusWord),
      (0x010, s.cmdLast), (0x014, s.iters), (0x018, s.bits), (0x01C, s.pbits), (0x020, s.qbits)] →
    step { s with script := hostRead s.cfg off :: es } =
      .next { s with script := es, resp := some { err := false, rdata := some v } }

/-- Rules R28, R52, R58: a read of a limb returns it while IDLE and some word while BUSY; it records
UNWRITTEN_READ exactly when the limb is unwritten; it changes nothing else but the model's own counter. The
record is the model's reading of rule R169 (log entries 4, 18), the counter is its own (log entry 5). -/
def Obligations.LimbReads : Prop :=
  ∀ (s : State) (es : List Event) (k : XName) (i : Nat), s.cfg.valid = true → i < s.cfg.nlimbs →
    ∃ (v : Word) (n : Nat),
      step { s with script := hostRead s.cfg (limbOffset k i) :: es } = .next
        { s with
            script := es
            resp := some { err := false, rdata := some v }
            fresh := n
            recorded := if (s.limb k i).written then s.recorded else some .unwrittenRead } ∧
      (s.phase = .idle → v = (s.limb k i).val)

/-- Rule R59: every write while IDLE. -/
def Obligations.WritesWhileIdle : Prop :=
  ∀ (s : State) (es : List Event) (v : Word), s.cfg.valid = true → s.phase = .idle →
    let w := fun off => step { s with script := hostWrite s.cfg off v :: es }
    let t : State := { s with script := es, resp := some { err := false, rdata := none } }
    w 0x008 = .next { t with ie := v.getLsbD 0 } ∧
    w 0x00C = .next { t with done := s.done && !v.getLsbD 1, ovr := s.ovr && !v.getLsbD 4 } ∧
    w 0x010 = acceptWord v t ∧
    w 0x014 = .next { t with iters := v } ∧
    w 0x018 = .next { t with bits := v } ∧
    (∀ k i, i < s.cfg.nlimbs → w (limbOffset k i) = .next (t.writeLimb k i v)) ∧
    (∀ off, off ∈ [0x000, 0x004, 0x01C, 0x020] ∨ ReservedOffset s.cfg off → w off = .next t)

/-- Rule R60: every write while BUSY. -/
def Obligations.WritesWhileBusy : Prop :=
  ∀ (s : State) (es : List Event) (v : Word), s.cfg.valid = true → s.busy = true →
    let w := fun off => step { s with script := hostWrite s.cfg off v :: es }
    let t : State := { s with script := es, resp := some { err := false, rdata := none } }
    w 0x008 = .next { t with ie := v.getLsbD 0 } ∧
    w 0x00C = .next { t with done := s.done && !v.getLsbD 1, ovr := s.ovr && !v.getLsbD 4 } ∧
    (∀ off, off ∈ [0x010, 0x014, 0x018] → w off = .next { t with ovr := true }) ∧
    (∀ k i, i < s.cfg.nlimbs → w (limbOffset k i) = .next { t with ovr := true }) ∧
    (∀ off, off ∈ [0x000, 0x004, 0x01C, 0x020] ∨ ReservedOffset s.cfg off → w off = .next t)

/-- Rules R39, R52: a reserved offset reads as 0 and ignores writes, in both phases, with no error and no
OVR. -/
def Obligations.ReservedOffsetsReadZeroIgnoreWrites : Prop :=
  ∀ (s : State) (es : List Event) (off : Nat) (v : Word), s.cfg.valid = true → ReservedOffset s.cfg off →
    step { s with script := hostRead s.cfg off :: es } =
      .next { s with script := es, resp := some { err := false, rdata := some 0 } } ∧
    step { s with script := hostWrite s.cfg off v :: es } =
      .next { s with script := es, resp := some { err := false, rdata := none } }

/-- Rules R59, R62: a limb written while IDLE is read back by the next access, records no fault, and no
other limb changes. -/
def Obligations.LimbWrittenThenRead : Prop :=
  ∀ (s : State) (es : List Event) (k : XName) (i : Nat) (v : Word), s.cfg.valid = true →
    s.phase = .idle → (∀ k', (s.xreg k').length = s.cfg.nlimbs) → i < s.cfg.nlimbs →
    let off := limbOffset k i
    ∃ t u, step { s with script := hostWrite s.cfg off v :: hostRead s.cfg off :: es } = .next t ∧
      step t = .next u ∧
      u.resp = some { err := false, rdata := some v } ∧ u.recorded = s.recorded ∧
      u.limb k i = { val := v, written := true } ∧
      ∀ k' j, (k', j) ≠ (k, i) → u.limb k' j = s.limb k' j

/-- Rules R31, R32, R161: the fields of the words read at STATUS and CTRL, whose reserved bits are 0, and
the number of each error code, of which there is none above 5. -/
def Obligations.StatusAndCtrlWordFields : Prop :=
  (ErrCode.noError.code = 0 ∧ ErrCode.illegal.code = 1 ∧ ErrCode.divzero.code = 2 ∧
    ErrCode.range.code = 3 ∧ ErrCode.rngBound.code = 4 ∧ ErrCode.rngLaw.code = 5) ∧
  (∀ e : ErrCode, e.code.toNat ≤ 5) ∧
  ∀ s : State,
    s.ctrlWord.getLsbD 0 = s.ie ∧ s.ctrlWord.extractLsb' 1 31 = 0 ∧
    s.statusWord.getLsbD 0 = s.busy ∧ s.statusWord.getLsbD 1 = s.done ∧
    s.statusWord.getLsbD 2 = (s.statusWord.extractLsb' 8 4 != 0) ∧ s.statusWord.getLsbD 3 = s.prime ∧
    s.statusWord.getLsbD 4 = s.ovr ∧ s.statusWord.extractLsb' 5 3 = 0 ∧
    s.statusWord.extractLsb' 8 4 = s.errcode.code ∧ s.statusWord.extractLsb' 12 20 = 0

/-- Rule R30: the fields of the word read at CFG. -/
def Obligations.CfgWordFields : Prop :=
  ∀ c : Config, c.valid = true →
    (cfgWord c).extractLsb' 0 8 = 32 ∧ ((cfgWord c).extractLsb' 8 8).toNat = c.nlimbs ∧
    (cfgWord c).extractLsb' 16 4 = 8 ∧ (cfgWord c).extractLsb' 20 4 = 0 ∧ (cfgWord c).extractLsb' 24 8 = 1

/-! ## Acceptance and steps (rules R34, R65, R166, R203) -/

/-- Rules R34, R203: while BUSY the engine's step runs the command that was decoded at acceptance. The
script of moves and its cycle are the model's own (log entry 6), and so is the grain of the step (log
entry 7). -/
def Obligations.StepRunsTheDecodedCommand : Prop :=
  (∀ (s : State) (r : Running) (i : Instr) (es : List Event), s.cfg.valid = true → s.phase = .busy r →
    r.command = some i →
    (s.script = [] → s.cycle = [] → step s = exec i s) ∧
    (s.script = .engine :: es → step s = exec i { s with script := es })) ∧
  ∀ (s : State) (e : Event) (es : List Event), s.script = [] → s.cycle = e :: es →
    step s = step { s with script := e :: es }

/-- Rules R33, R34, R56: a legal word written to CMD while IDLE is decoded, and the meaning of its command
is run on the state after the transfer. -/
def Obligations.StepAcceptsTheCommandWritten : Prop :=
  ∀ (s : State) (c : Word) (i : Instr) (es : List Event), s.cfg.valid = true → s.phase = .idle →
    decode c = .cmd i →
    step { s with script := hostWrite s.cfg 0x010 c :: es } =
      exec i { s with script := es, resp := some { err := false, rdata := none } }

/-- Rules R34, R65, R141: what acceptance does for each command: the word is recorded, DONE and ERRCODE
are cleared, the phase goes BUSY with the snapshot, and an unwritten limb in the snapshot records
UNWRITTEN_READ (rules R28, R169; log entry 4). Nothing else changes. -/
def Obligations.AcceptanceTakesTheSnapshot : Prop :=
  ∀ s : State, s.phase = .idle →
    (∀ rd ra rb rc, exec (.powmod rd ra rb rc) s = .next
      { s with cmdLast := encode (.powmod rd ra rb rc), done := false, errcode := .noError
               recorded := if s.xWritten ra && s.xWritten rb && s.xWritten rc then s.recorded
                           else some .unwrittenRead
               phase := .busy (.powmod rd ra rb rc
                 { b := s.xval ra, e := s.xval rb, m := s.xval rc, loop := none }) }) ∧
    (∀ ra, exec (.isprime ra) s = .next
      { s with cmdLast := encode (.isprime ra), done := false, errcode := .noError
               recorded := if s.xWritten ra then s.recorded else some .unwrittenRead
               phase := .busy (.isprime ra
                 { n := s.xval ra, k := s.iters.toNat, s := 0, r := 0, round := 0, pt := .start }) }) ∧
    (∀ rd sel, exec (.primegen rd sel) s = .next
      { s with cmdLast := encode (.primegen rd sel), done := false, errcode := .noError
               phase := .busy (.primegen rd sel
                 { bits := (match sel with | .bits => s.bits | .pbits => s.pbits | .qbits => s.qbits).toNat
                   k := s.iters.toNat, pt := .check }) }) ∧
    exec .split s = .next
      { s with cmdLast := encode .split, done := false, errcode := .noError
               phase := .busy (.split { nbits := s.bits.toNat, rr := none }) }

/-- Rule R166: an illegal word written while IDLE is accepted, and completes at the next engine step with
ERRCODE = 1 and no other effect; written while BUSY it is dropped and only sets OVR. -/
def Obligations.IllegalWordCompletesAsIllegal : Prop :=
  ∀ (s : State) (c : Word) (es : List Event), s.cfg.valid = true → decode c = .illegal →
    let s1 : State := { s with script := hostWrite s.cfg 0x010 c :: .engine :: es }
    let t : State := { s with script := .engine :: es, resp := some { err := false, rdata := none } }
    (s.phase = .idle →
      let a : State := { t with cmdLast := c, done := false, errcode := .noError, phase := .busy .illegal }
      step s1 = .next a ∧
      step a = .next
        { a with script := es, errcode := .illegal, done := true, phase := .idle, draw := none, ack := none }) ∧
    (s.busy = true → step s1 = .next { t with ovr := true })

/-- Rules R60, R65: while BUSY no host access changes the running command, its operands, its request, or
any register but CTRL, DONE and OVR. -/
def Obligations.HostAccessesKeepTheRunningCommand : Prop :=
  ∀ (s : State) (a : Access) (es : List Event), s.cfg.valid = true → s.busy = true →
    ∃ t, step { s with script := .bus a :: es } = .next t ∧
      t.phase = s.phase ∧ t.x = s.x ∧ t.iters = s.iters ∧ t.bits = s.bits ∧ t.pbits = s.pbits ∧
      t.qbits = s.qbits ∧ t.draw = s.draw ∧ t.ack = s.ack ∧ t.cmdLast = s.cmdLast ∧
      t.errcode = s.errcode ∧ t.prime = s.prime

/-- Rule R60: a command other than the one that runs, issued while BUSY, is dropped (log entry 10). -/
def Obligations.CommandsIssuedWhileBusyAreDropped : Prop :=
  ∀ (s : State) (r : Running) (i : Instr), s.phase = .busy r → r.command ≠ some i →
    exec i s = .next { s with ovr := true }

/-! ## POWMOD (rules R90 to R99) -/

/-- Rules R90, R93, R95, R98: POWMOD with M >= 1 completes with B^E mod M in X[RD], and with the unreduced
1 for E = 0; nothing else changes but DONE, ERRCODE and the phase. -/
def Obligations.PowmodWritesThePower : Prop :=
  ∀ (s : State) (rd ra rb rc : XName) (w : PowWork),
    s.phase = .busy (.powmod rd ra rb rc w) → s.draw = none → w.loop = none → w.m ≠ 0 →
    ∃ t, exec (.powmod rd ra rb rc) s = .next t ∧
      t = { s.writeX rd (if w.e = 0 then 1 else w.b ^ w.e % w.m) with
              errcode := .noError, done := true, phase := .idle, draw := none, ack := none } ∧
      (w.m < 2 ^ s.cfg.width → 1 ≤ s.cfg.nlimbs →
        t.xval rd = (if w.e = 0 then 1 else w.b ^ w.e % w.m) ∧ t.xWritten rd = true) ∧
      ∀ k, k ≠ rd → t.xreg k = s.xreg k

/-- Rules R34, R93, R97: from the host's write of the command word to the result, for any choice of
registers, equal or not. X[RD] is not written before the completion; the result is that of the values at
acceptance. M = 0 is the statement PowmodModulusZero. That an unwritten operand limb does not stop the
command, and is only recorded, is the model's choice (log entry 4). -/
def Obligations.PowmodFromCommandWriteToResult : Prop :=
  ∀ (s : State) (rd ra rb rc : XName) (es : List Event),
    s.cfg.valid = true → (∀ k, (s.xreg k).length = s.cfg.nlimbs) → s.phase = .idle → s.draw = none →
    s.xval rc ≠ 0 →
    ∃ t u, step { s with script := hostCommand s.cfg (.powmod rd ra rb rc) :: .engine :: es } = .next t ∧
      t.busy = true ∧ t.x = s.x ∧ t.done = false ∧
      step t = .next u ∧ u.busy = false ∧ u.done = true ∧ u.errcode = .noError ∧
      u.xval rd = (if s.xval rb = 0 then 1 else s.xval ra ^ s.xval rb % s.xval rc) ∧
      (∀ k, k ≠ rd → u.xreg k = s.xreg k) ∧ u.xWritten rd = true ∧
      u.prime = s.prime ∧ u.ovr = s.ovr ∧ u.ie = s.ie ∧ u.iters = s.iters ∧ u.bits = s.bits ∧
      u.pbits = s.pbits ∧ u.qbits = s.qbits ∧ u.cmdLast = encode (.powmod rd ra rb rc) ∧ u.script = es

/-- Rule R92: M = 0 is found before any arithmetic, for every E and B, and X[RD] is unchanged. -/
def Obligations.PowmodModulusZero : Prop :=
  ∀ (s : State) (rd ra rb rc : XName) (w : PowWork),
    s.phase = .busy (.powmod rd ra rb rc w) → s.draw = none → w.loop = none → w.m = 0 →
    exec (.powmod rd ra rb rc) s = .next
      { s with errcode := .divzero, done := true, phase := .idle, draw := none, ack := none }

/-- Rule R91: the loop takes the exponent's bits from bit 0 upward and runs exactly bitlength(E) times:
after j iterations the remaining exponent is E / 2^j, which is 0 first for j = bitlength(E). -/
def Obligations.PowmodLoopRunsBitlengthTimes : Prop :=
  ∀ (w : PowWork) (j : Nat), w.loop = none → w.m ≠ 0 → j ≤ bitLength w.e →
    ∃ l : PowLoop, runTicks powmodTick (1 + j) w = .go { w with loop := some l } ∧
      l.e = w.e / 2 ^ j ∧ (l.e = 0 ↔ j = bitLength w.e)

/-! ## ISPRIME (rules R110 to R126) -/

/-- Rule R111: N < 2 gives 0, N = 2 gives 1, N even gives 0, without a draw. -/
def Obligations.IsprimeEarlyOutcomes : Prop :=
  ∀ (s : State) (ra : XName) (w : MrWork),
    s.phase = .busy (.isprime ra w) → s.draw = none → w.pt = .start → w.n < 2 ∨ w.n = 2 ∨ w.n % 2 = 0 →
    exec (.isprime ra) s = .next
      { s with prime := decide (w.n = 2), errcode := .noError, done := true, phase := .idle
               draw := none, ack := none }

/-- Rule R121: with K = 0 every odd N >= 3 gives 1 without a draw. -/
def Obligations.IsprimeWithZeroRounds : Prop :=
  ∀ (s : State) (ra : XName) (w : MrWork),
    s.phase = .busy (.isprime ra w) → s.draw = none → w.pt = .start → 3 ≤ w.n → w.n % 2 = 1 → w.k = 0 →
    exec (.isprime ra) s = .next
      { s with prime := true, errcode := .noError, done := true, phase := .idle, draw := none, ack := none }

/-- Rule R120: the witness range is empty for N = 3 and for no odd N >= 5. N = 3 with K >= 1 makes no
request and completes with RNG_BOUND, PRIME unchanged; with K = 0 it gives 1. -/
def Obligations.IsprimeOfThreeHasNoWitness : Prop :=
  (∀ c : Config, witnessBound c 3 ≤ 0 ∧ ∀ n, 5 ≤ n → n % 2 = 1 → 0 < witnessBound c n) ∧
  ∀ (s : State) (ra : XName) (w : MrWork),
    s.phase = .busy (.isprime ra w) → s.draw = none → w.pt = .start → w.n = 3 →
    (1 ≤ w.k → exec (.isprime ra) s = .next
      { s with errcode := .rngBound, done := true, phase := .idle, draw := none, ack := none }) ∧
    (w.k = 0 → exec (.isprime ra) s = .next
      { s with prime := true, errcode := .noError, done := true, phase := .idle, draw := none, ack := none })

/-- Rules R112, R113, R119: for odd N >= 5 and K >= 1 the engine decomposes N-1 = 2^s * r and requests the
first witness below N - MR_BOUND_OFFSET. -/
def Obligations.IsprimeRequestsTheFirstWitness : Prop :=
  ∀ (s : State) (ra : XName) (w : MrWork),
    s.phase = .busy (.isprime ra w) → s.draw = none → w.pt = .start → 5 ≤ w.n → w.n % 2 = 1 → 1 ≤ w.k →
    ∃ e r, 2 ^ e * r = w.n - 1 ∧ r % 2 = 1 ∧ 1 ≤ e ∧
      exec (.isprime ra) s = .next
        { s with phase := .busy (.isprime ra { w with s := e, r := r, round := 1, pt := .round })
                 draw := some (.below (w.n - s.cfg.mrBoundOffset.value)) }

/-- Rules R113 to R118: a round from its lawful answer v on, with the witness a = v + 2. A round that
proves N composite ends the test with PRIME = 0; the last of the K rounds that proves nothing ends it with
PRIME = 1; any other leads to the next request. -/
def Obligations.IsprimeRoundOutcome : Prop :=
  ∀ (s : State) (ra : XName) (w : MrWork) (v : Nat),
    s.phase = .busy (.isprime ra w) → w.pt = .round → w.round ≤ w.k →
    s.draw = some (.below (w.n - s.cfg.mrBoundOffset.value)) → s.ack = some v →
    v < w.n - s.cfg.mrBoundOffset.value →
    exec (.isprime ra) s = .next
      (if roundPasses s.cfg.mrEarlyExit w.n w.s w.r (v + 2) then
        if w.round = w.k then
          { s with prime := true, errcode := .noError, done := true, phase := .idle, draw := none, ack := none }
        else { s with phase := .busy (.isprime ra { w with round := w.round + 1 }), ack := none }
      else { s with prime := false, errcode := .noError, done := true, phase := .idle
                    draw := none, ack := none })

/-- Rules R124, R126: at MR_EARLY_EXIT = 1 an ISPRIME of a prime never completes with PRIME = 0, whatever
the random source answers, from every state that meets the invariant. -/
def Obligations.PrimesAreNeverReportedComposite : Prop :=
  ∀ (s t : State) (ra : XName) (w : MrWork), s.Inv → s.cfg.mrEarlyExit = true →
    s.phase = .busy (.isprime ra w) → w.n.Prime → exec (.isprime ra) s = .next t →
    t.phase = .idle → t.errcode = .noError → t.prime = true

/-- Rule R125: for N in {4, 15, 21} and every K >= 1, ISPRIME gives 0 for every answer of the random
source, under both settings of MR_EARLY_EXIT and of MR_BOUND_OFFSET. -/
def Obligations.SmallCompositesAreReportedComposite : Prop :=
  ∀ (s : State) (ra : XName) (w : MrWork),
    s.phase = .busy (.isprime ra w) → s.draw = none → w.pt = .start → w.n ∈ [4, 15, 21] → 1 ≤ w.k →
    ∃ t, exec (.isprime ra) s = .next t ∧
      (w.n = 4 → t.phase = .idle ∧ t.errcode = .noError ∧ t.prime = false) ∧
      (w.n ≠ 4 → t.draw = some (.below (w.n - s.cfg.mrBoundOffset.value)) ∧
        ∀ v, v < w.n - s.cfg.mrBoundOffset.value →
          ∃ u, exec (.isprime ra) { t with ack := some v } = .next u ∧
            u.phase = .idle ∧ u.errcode = .noError ∧ u.prime = false)

/-! ## SPLIT (rules R135 to R137) -/

/-- Rule R135: SPLIT of nbits >= 2 requests a number below nbits div 2. -/
def Obligations.SplitRequestsItsDraw : Prop :=
  ∀ (s : State) (w : SplitWork), s.phase = .busy (.split w) → s.draw = none → w.rr = none → 2 ≤ w.nbits →
    exec .split s = .next { s with draw := some (.below (w.nbits / 2)) }

/-- Rules R135, R137: with the lawful answer v, PBITS = v + h2 and QBITS = 4 * h2 - PBITS, exactly, within
the rule's ranges. -/
def Obligations.SplitWritesPbitsAndQbits : Prop :=
  ∀ (s : State) (w : SplitWork) (v : Nat), s.phase = .busy (.split w) → w.rr = none →
    2 ≤ w.nbits → w.nbits < 2 ^ 32 → s.draw = some (.below (w.nbits / 2)) → s.ack = some v → v < w.nbits / 2 →
    ∃ p q : Word,
      exec .split s = .next { s with pbits := p, qbits := q, errcode := .noError, done := true
                                     phase := .idle, draw := none, ack := none } ∧
      p.toNat = v + w.nbits / 2 / 2 ∧ p.toNat + q.toNat = 4 * (w.nbits / 2 / 2) ∧
      w.nbits / 2 / 2 = w.nbits / 4 ∧ p.toNat + q.toNat = w.nbits - w.nbits % 4 ∧
      w.nbits / 4 ≤ p.toNat ∧ p.toNat ≤ w.nbits / 4 + w.nbits / 2 - 1 ∧
      (3 * (w.nbits / 4 : Nat) : Int) - (w.nbits / 2 : Nat) + 1 ≤ q.toNat ∧ q.toNat ≤ 3 * (w.nbits / 4) ∧
      (w.nbits / 4 : Nat) ≤ (3 * (w.nbits / 4 : Nat) : Int) - (w.nbits / 2 : Nat) + 1 ∧
      w.nbits / 4 ≤ q.toNat ∧ p.toNat ≤ w.nbits ∧ q.toNat ≤ w.nbits

/-- Rule R136: SPLIT with nbits < 2 makes no draw, completes with RNG_BOUND and leaves PBITS and QBITS
unchanged. -/
def Obligations.SplitOfFewerThanTwoBits : Prop :=
  ∀ (s : State) (w : SplitWork), s.phase = .busy (.split w) → s.draw = none → w.rr = none → w.nbits < 2 →
    exec .split s = .next
      { s with errcode := .rngBound, done := true, phase := .idle, draw := none, ack := none }

/-! ## PRIMEGEN (rules R140 to R153) -/

/-- Rule R143: bits + 1 > W completes with RANGE before any draw, and X[RD] is unchanged; no value of
bits wraps the comparison. -/
def Obligations.PrimegenOutOfRange : Prop :=
  ∀ (s : State) (rd : XName) (sel : BitSel) (w : GenWork),
    s.phase = .busy (.primegen rd sel w) → s.draw = none → w.pt = .check → s.cfg.width ≤ w.bits →
    exec (.primegen rd sel) s = .next
      { s with errcode := .range, done := true, phase := .idle, draw := none, ack := none }

/-- Rules R140, R144: within the range the engine requests a candidate of exactly bits + 1 bits. -/
def Obligations.PrimegenRequestsACandidate : Prop :=
  ∀ (s : State) (rd : XName) (sel : BitSel) (w : GenWork),
    s.phase = .busy (.primegen rd sel w) → s.draw = none → w.pt = .check → w.bits < s.cfg.width →
    exec (.primegen rd sel) s = .next
      { s with phase := .busy (.primegen rd sel { w with pt := .draw }), draw := some (.bits (w.bits + 1)) }

/-- Rules R144 to R149: what follows from a lawful candidate v: 0, 1 and every even number above 2 are
rejected and the next candidate is requested; 2, and at K = 0 every odd number from 3 on, is the result;
3 at K >= 1 is RNG_BOUND; an odd number from 5 on at K >= 1 leads to the request of a witness. -/
def Obligations.PrimegenCandidateOutcome : Prop :=
  ∀ (s : State) (rd : XName) (sel : BitSel) (w : GenWork) (v : Nat),
    s.phase = .busy (.primegen rd sel w) → w.pt = .draw → s.draw = some (.bits (w.bits + 1)) →
    s.ack = some v → 2 ^ w.bits ≤ v → v < 2 ^ (w.bits + 1) →
    (v < 2 ∨ (v % 2 = 0 ∧ v ≠ 2) → exec (.primegen rd sel) s = .next { s with ack := none }) ∧
    (v = 2 ∨ (w.k = 0 ∧ 3 ≤ v ∧ v % 2 = 1) → exec (.primegen rd sel) s = .next
      { s.writeX rd v with errcode := .noError, done := true, phase := .idle, draw := none, ack := none }) ∧
    (v = 3 ∧ 1 ≤ w.k → exec (.primegen rd sel) s = .next
      { s with errcode := .rngBound, done := true, phase := .idle, draw := none, ack := none }) ∧
    (5 ≤ v ∧ v % 2 = 1 ∧ 1 ≤ w.k → ∃ e r, 2 ^ e * r = v - 1 ∧ r % 2 = 1 ∧ 1 ≤ e ∧
      exec (.primegen rd sel) s = .next
        { s with phase := .busy (.primegen rd sel { w with pt := .test (
                   { n := v, k := w.k, s := e, r := r, round := 1, pt := .round } : MrWork) }),
                 draw := some (.below (v - s.cfg.mrBoundOffset.value)), ack := none })

/-- Rules R140, R145, R146: a round of the candidate's test from its lawful answer v on. A candidate that
passes its last round is the result; one that is proved composite is rejected and the next is requested. -/
def Obligations.PrimegenRoundOutcome : Prop :=
  ∀ (s : State) (rd : XName) (sel : BitSel) (w : GenWork) (m : MrWork) (v : Nat),
    s.phase = .busy (.primegen rd sel w) → w.pt = .test m → m.pt = .round → m.round ≤ m.k →
    s.draw = some (.below (m.n - s.cfg.mrBoundOffset.value)) → s.ack = some v →
    v < m.n - s.cfg.mrBoundOffset.value →
    exec (.primegen rd sel) s = .next
      (if roundPasses s.cfg.mrEarlyExit m.n m.s m.r (v + 2) then
        if m.round = m.k then
          { s.writeX rd m.n with
              errcode := .noError, done := true, phase := .idle, draw := none, ack := none }
        else { s with phase := .busy (.primegen rd sel { w with pt := .test { m with round := m.round + 1 } })
                      ack := none }
      else { s with phase := .busy (.primegen rd sel { w with pt := .draw })
                    draw := some (.bits (w.bits + 1)), ack := none })

/-- Rules R142, R150: a PRIMEGEN that completes without an error leaves in X[RD] a number of exactly
bits + 1 bits that is 2 or odd. -/
def Obligations.PrimegenResultHasBitsPlusOneBits : Prop :=
  ∀ (s t : State) (rd : XName) (sel : BitSel) (w : GenWork), s.Inv →
    s.phase = .busy (.primegen rd sel w) → exec (.primegen rd sel) s = .next t →
    t.phase = .idle → t.errcode = .noError →
    2 ^ w.bits ≤ t.xval rd ∧ t.xval rd < 2 ^ (w.bits + 1) ∧ bitLength (t.xval rd) = w.bits + 1 ∧
      (t.xval rd = 2 ∨ t.xval rd % 2 = 1) ∧ t.xWritten rd = true

/-- Rules R147, R204: PRIMEGEN with bits = 0 never completes: its acceptance leads into `ZeroBitsHang`,
whose one request has the one lawful answer 1, and no host access, no engine step and no lawful answer
leads out of it, only reset does. -/
def Obligations.PrimegenOfZeroBitsNeverCompletes : Prop :=
  (∀ v, (Draw.bits 1).lawful v = true ↔ v = 1) ∧
  (∀ (s : State) (rd : XName) (sel : BitSel), s.phase = .idle → s.draw = none → s.ack = none →
    s.bitsOf sel = 0 → ∃ t, exec (.primegen rd sel) s = .next t ∧ ZeroBitsHang t) ∧
  ∀ s : State, s.cfg.valid = true → ZeroBitsHang s →
    s.turn.1 ≠ .reset → (∀ v, s.turn.1 = .answer v → v = 1) →
    ∃ t, step s = .next t ∧ ZeroBitsHang t ∧ t.busy = true

/-- Rules R146, R204: there is no bound on the candidates. With a random source that answers every request
and whose every candidate is rejected, PRIMEGEN never completes, although no request stays unanswered: at
once, or after a round that proves the candidate composite, it is back where it was. The cycle of moves is
the model's own (log entry 6). -/
def Obligations.EndlessRejectedCandidatesHang : Prop :=
  ∀ (s : State) (rd : XName) (sel : BitSel) (w : GenWork) (v : Nat),
    s.cfg.valid = true → s.phase = .busy (.primegen rd sel w) → w.pt = .draw →
    s.draw = some (.bits (w.bits + 1)) → s.ack = none → s.script = [] →
    2 ^ w.bits ≤ v → v < 2 ^ (w.bits + 1) →
    (v < 2 ∨ (v % 2 = 0 ∧ v ≠ 2) → s.cycle = [.answer v, .engine] →
      ∀ n j, j < 2 → ∃ t : State, Host.Core.run core (2 * n + j) s = .next t ∧ t.busy = true ∧
        (j = 0 → t = s)) ∧
    (∀ a e r, 5 ≤ v → 1 ≤ w.k → 2 ^ e * r = v - 1 → r % 2 = 1 → 1 ≤ e →
      a < v - s.cfg.mrBoundOffset.value → roundPasses s.cfg.mrEarlyExit v e r (a + 2) = false →
      s.cycle = [.answer v, .engine, .answer a, .engine] →
      ∀ n j, j < 4 → ∃ t : State, Host.Core.run core (4 * n + j) s = .next t ∧ t.busy = true ∧
        (j = 0 → t = s))

/-! ## The random source's move (rules R24, R130, R191) -/

/-- Rules R24, R41, R130, R191: an answer is put on the port for the request in flight and changes nothing
else; with no request in flight, or with an answer already on the port, it is ignored (log entries 17, 19).
A free answer keeps the law of the request (log entry 23), and every lawful answer is one that it can be. -/
def Obligations.RandomSourceAnswersTheRequest : Prop :=
  (∀ (s : State) (v : Nat) (es : List Event), s.cfg.valid = true →
    (∀ d, s.inFlight = some d →
      step { s with script := .answer v :: es } = .next { s with script := es, ack := some v } ∧
      ∃ a, step { s with script := .freeAnswer :: es } =
          .next { s with script := es, ack := some a, fresh := s.fresh + 1 } ∧
        (d.legal s.cfg = true → d.lawful a = true)) ∧
    (s.inFlight = none →
      step { s with script := .answer v :: es } = .next { s with script := es } ∧
      step { s with script := .freeAnswer :: es } = .next { s with script := es })) ∧
  (∀ (s : State) (d : Draw), s.inFlight = some d ↔ s.draw = some d ∧ s.ack = none) ∧
  ∀ (d : Draw) (v : Nat), d.lawful v = true → ∃ n, d.freeAnswer n = v

/-! ## Errors and completion (rules R45, R130, R160 to R165) -/

/-- Rule R130: what the laws are, and that an answer that breaks its law ends the command at once with
RNG_LAW and is not used. -/
def Obligations.LawBreakingAnswersEndTheCommand : Prop :=
  (∀ b v, (Draw.below b).lawful v = true ↔ v < b) ∧
  (∀ k v, (Draw.bits k).lawful v = true ↔ 2 ^ (k - 1) ≤ v ∧ v < 2 ^ k) ∧
  ∀ (s : State) (r : Running) (i : Instr) (d : Draw) (v : Nat),
    s.phase = .busy r → r.command = some i → s.draw = some d → s.ack = some v → d.lawful v = false →
    exec i s = .next
      { s with errcode := .rngLaw, done := true, phase := .idle, draw := none, ack := none }

/-- Rules R45, R163: everything a completion of each command can write: its results without an error, and
nothing but DONE, ERRCODE and the phase with one. -/
def Obligations.CompletionsWriteOnlyTheirMatrix : Prop :=
  ∀ (s t : State) (r : Running) (i : Instr), s.phase = .busy r → r.command = some i →
    exec i s = .next t → t.phase = .idle →
    if t.errcode = .noError then
      match i with
      | .powmod rd _ _ _ => ∃ v, t = { s.writeX rd v with
          errcode := .noError, done := true, phase := .idle, draw := none, ack := none }
      | .isprime _ => ∃ b, t = { s with
          prime := b, errcode := .noError, done := true, phase := .idle, draw := none, ack := none }
      | .primegen rd _ => ∃ v, t = { s.writeX rd v with
          errcode := .noError, done := true, phase := .idle, draw := none, ack := none }
      | .split => ∃ p q, t = { s with pbits := p, qbits := q
                                      errcode := .noError, done := true, phase := .idle
                                      draw := none, ack := none }
    else t = { s with errcode := t.errcode, done := true, phase := .idle, draw := none, ack := none }

/-- Rules R27, R40, R61: an engine step of a command that does not complete changes nothing but the hidden
state and the random-source port. -/
def Obligations.UnfinishedCommandsWriteNothing : Prop :=
  ∀ (s t : State) (r : Running) (i : Instr), s.phase = .busy r → r.command = some i →
    exec i s = .next t → t.busy = true →
    t = { s with phase := t.phase, draw := t.draw, ack := t.ack } ∧
      ∀ r', t.phase = .busy r' → r'.command = some i

/-- Rule R164: which command raises which error. -/
def Obligations.ErrorCodesOfEachCommand : Prop :=
  ∀ (s t : State) (r : Running), s.Inv → s.phase = .busy r → engineStep s = .next t → t.phase = .idle →
    t.errcode ∈ (match r with
      | .illegal => [.illegal]
      | .powmod _ _ _ _ _ => [.noError, .divzero]
      | .isprime _ _ => [.noError, .rngBound, .rngLaw]
      | .split _ => [.noError, .rngBound, .rngLaw]
      | .primegen _ _ _ => [.noError, .range, .rngBound, .rngLaw] : List ErrCode)

/-- Rule R160: there are no traps: no command ever stops the machine, and in a configuration of this
hardware neither does a step. That a waiting engine answers a next state, the one it is in, is the model's
choice (log entry 12), and so is that an unwritten limb is recorded and does not stop it (log entry 4). -/
def Obligations.NoCommandStopsTheMachine : Prop :=
  (∀ (i : Instr) (s : State), ∃ t, exec i s = .next t) ∧
  ∀ s : State, s.cfg.valid = true → ∃ t, step s = .next t

/-- Rules R41, R133: with a request in flight the engine holds it and takes no other step, for ever: its
turn, with or without moves to come, leaves everything but the script as it is; such a state is not final;
reset drops the request. That the wait is a step which changes nothing is the model's choice (log entry
12), and so is the turn that comes with no move listed (log entry 6). -/
def Obligations.DrawInFlightHoldsTheEngine : Prop :=
  ∀ (s : State) (r : Running) (i : Instr) (d : Draw), s.cfg.valid = true → s.phase = .busy r →
    r.command = some i → s.draw = some d → s.ack = none →
    (s.script = [] → s.cycle = [] → step s = .next s) ∧
    (∀ es, step { s with script := .engine :: es } = .next { s with script := es }) ∧
    (∀ es, s.script = [] → s.cycle = .engine :: es → step s = .next { s with script := es }) ∧
    s.inFlight = some d ∧ s.final = false ∧ s.resetPulse.draw = none

/-! ## Flags, the interrupt, the configuration (rules R6, R25, R42, R123, R170) -/

/-- Rule R123: PRIME changes only at the completion of an ISPRIME without an error, and at reset, which
clears it. -/
def Obligations.PrimeChangesOnlyByIsprime : Prop :=
  ∀ s t : State, step s = .next t → t.prime ≠ s.prime →
    (∃ ra w, s.phase = .busy (.isprime ra w) ∧ t.phase = .idle ∧ t.errcode = .noError ∧ t.done = true) ∨
    (s.turn.1 = .reset ∧ t.prime = false)

/-- Rules R42, R60: OVR is set only by a host write that is dropped because the engine is BUSY, and DONE
only by a completion. -/
def Obligations.OvrAndDoneAreSetOnlyByTheirCause : Prop :=
  ∀ s t : State, step s = .next t →
    (s.ovr = false → t.ovr = true → s.busy = true ∧ ∃ a, s.turn.1 = .bus a ∧ a.write = true ∧
      inWindow s.cfg a.addr = true ∧ DroppedSlot (slotAt s.cfg (portAddr a.addr))) ∧
    (s.done = false → t.done = true → s.busy = true ∧ t.phase = .idle)

/-- Rules R25, R170: the interrupt is the level DONE AND IE: raised by every completion when enabled,
dropped by a write of 1 to DONE, by acceptance and by reset, masked and not lost by clearing IE. -/
def Obligations.InterruptIsTheLevelOfDoneAndIe : Prop :=
  ∀ s : State,
    (s.irq = true ↔ s.done = true ∧ s.ie = true) ∧
    s.complete.irq = s.ie ∧ (∀ e, (s.raiseError e).irq = s.ie) ∧
    (∀ v : Word, v.getLsbD 1 = true → (s.writeStatus v).irq = false) ∧
    (∀ c r, (s.accept c r).irq = false) ∧ s.resetPulse.irq = false ∧
    (∀ v : Word, v.getLsbD 0 = false → (s.writeCtrl v).irq = false ∧ (s.writeCtrl v).done = s.done) ∧
    (∀ v : Word, v.getLsbD 0 = true → (s.writeCtrl v).irq = s.done) ∧
    s.irqLine = (if s.done = true ∧ s.ie = true then some s.cfg.engineIrq else none)

/-- Rules R6, R13, R169: NLIMBS outside 1..128 is refused as BAD_CONFIG, and no step changes the
configuration (log entries 1, 11). -/
def Obligations.ConfigurationIsCheckedAndFixed : Prop :=
  (∀ s : State, s.cfg.nlimbs < 1 ∨ 128 < s.cfg.nlimbs → step s = .refused .badConfig) ∧
  ∀ s t : State, step s = .next t → t.cfg = s.cfg

/-- Rule R27: X changes only by a host write of a limb while IDLE, by the completion of a POWMOD or
PRIMEGEN that names the register, and, in this model (log entry 5), by reset, which leaves every limb an
unspecified value. -/
def Obligations.XChangesOnlyByItsWriters : Prop :=
  ∀ s t : State, step s = .next t → t.x ≠ s.x →
    (s.phase = .idle ∧ ∃ a k i, s.turn.1 = .bus a ∧ a.write = true ∧ inWindow s.cfg a.addr = true ∧
      slotAt s.cfg (portAddr a.addr) = .limb k i ∧ t.x = (s.writeLimb k i a.wdata).x) ∨
    (∃ r i rd v, s.phase = .busy r ∧ r.command = some i ∧
      ((∃ ra rb rc, i = .powmod rd ra rb rc) ∨ ∃ sel, i = .primegen rd sel) ∧
      t.phase = .idle ∧ t.errcode = .noError ∧ t.x = (s.writeX rd v).x) ∨
    s.turn.1 = .reset

/-- Rule R169 and spec/93_implementation_defined.md: a recorded model fault is never cleared. That reset
does not clear it either is the model's choice (log entry 4). -/
def Obligations.RecordedFaultIsNeverCleared : Prop :=
  ∀ (s t : State) (f : Fault), step s = .next t → s.recorded = some f → t.recorded = some f

/-- Rule R205: a state is final exactly when the host has no access to come and the engine is IDLE with no
draw in flight; then every step finds nothing to do and leads to a final state. The script and its cycle
are the model's own (log entry 6), that a recorded fault keeps a state from being final is its reading
of spec/93_implementation_defined.md (log entry 4), and that a reset to come does so is its choice (log
entry 24). -/
def Obligations.FinalStatesRest : Prop :=
  (∀ s : State, s.final = true ↔ (∀ e, e ∈ s.script ∨ e ∈ s.cycle → e ≠ .reset ∧ ∀ a, e ≠ .bus a) ∧
    s.phase = .idle ∧ s.draw = none ∧ s.recorded = none) ∧
  (∀ s : State, s.cfg.valid = true → s.final = true →
    step s = .next s.afterTurn ∧ s.afterTurn.final = true) ∧
  (∀ s : State, s.script = [] → s.cycle = [] → s.afterTurn = s) ∧
  (∀ s : State, s.busy = true ∨ s.draw ≠ none → s.final = false)

/-! ## The invariant -/

/-- Rules R24, R26, R40, R98, R112: every step keeps the invariant: NLIMBS limbs in every register, only
requests that the port can carry, no request while IDLE, and the running command at a point that its
pseudocode can reach, with the loop invariant of the power and N-1 = 2^s * r. -/
def Obligations.EveryStepKeepsTheInvariant : Prop :=
  ∀ s t : State, s.Inv → step s = .next t → t.Inv
end

