-- ==== Sys2Proof/Laws/Numbers.lean ====
section
/-! SUPPORT. Laws of the numbers: bit lengths (rule R10), limbs (rule R8), byte lanes (rule R56). -/

namespace Sys2Proof.Machine

/-! ## Bit lengths -/

theorem bitLength_zero : bitLength 0 = 0 := rfl

/-- `bitLength x` is the least k with x < 2^k (rule R10). -/
theorem bitLength_le_iff (x k : Nat) : bitLength x ≤ k ↔ x < 2 ^ k := by
  by_cases h : x = 0
  · simp [h, bitLength]
  · rw [bitLength, if_neg h, Nat.succ_le_iff, Nat.log2_lt h]

theorem lt_two_pow_bitLength (x : Nat) : x < 2 ^ bitLength x := (bitLength_le_iff x _).1 le_rfl

theorem bitLength_mono {x y : Nat} (h : x ≤ y) : bitLength x ≤ bitLength y :=
  (bitLength_le_iff x _).2 (h.trans_lt (lt_two_pow_bitLength y))

/-- Halving a positive number takes one bit off it. -/
theorem bitLength_half {x : Nat} (h : x ≠ 0) : bitLength (x / 2) + 1 = bitLength x := by
  rw [bitLength, bitLength, if_neg h, Nat.log2_def x]
  by_cases h2 : 2 ≤ x
  · rw [if_neg (by omega), if_pos h2]
  · rw [if_pos (by omega), if_neg h2]

theorem bitLength_pos {x : Nat} (h : x ≠ 0) : 1 ≤ bitLength x := by
  have := bitLength_half h
  omega

/-- The exponent s of N-1 = 2^s * r takes no more bits than N-1 has. -/
theorem exponent_lt_bitLength {s r x : Nat} (hr : r ≠ 0) (h : 2 ^ s * r = x) : s < bitLength x := by
  by_contra hlt
  have h1 : x < 2 ^ s := (bitLength_le_iff x s).1 (by omega)
  have h2 : 2 ^ s * 1 ≤ 2 ^ s * r := Nat.mul_le_mul_left _ (by omega)
  omega

/-- A number is a power of two times an odd number in one way only (rule R112). -/
theorem decomposition_unique {a b r q : Nat} (h : 2 ^ a * r = 2 ^ b * q) (hr : r % 2 = 1) (hq : q % 2 = 1) :
    a = b ∧ r = q := by
  induction a generalizing b with
  | zero =>
    cases b with
    | zero => simpa using h
    | succ b =>
      rw [pow_succ, pow_zero, one_mul, mul_comm (2 ^ b), mul_assoc] at h
      omega
  | succ a ih =>
    cases b with
    | zero =>
      rw [pow_succ, pow_zero, one_mul, mul_comm (2 ^ a), mul_assoc] at h
      omega
    | succ b =>
      have : 2 ^ a * r = 2 ^ b * q := by
        rw [pow_succ, pow_succ, mul_comm (2 ^ a), mul_comm (2 ^ b), mul_assoc, mul_assoc] at h
        omega
      obtain ⟨h1, h2⟩ := ih this
      exact ⟨by omega, h2⟩

/-! ## Limbs -/

theorem length_toLimbs (n v : Nat) : (toLimbs n v).length = n := by
  induction n generalizing v with
  | zero => rfl
  | succ n ih => simp [toLimbs, ih]

theorem limbsVal_lt (l : XReg) : limbsVal l < 2 ^ (32 * l.length) := by
  induction l with
  | nil => simp [limbsVal]
  | cons a l ih =>
    have ha : a.val.toNat < 2 ^ 32 := a.val.isLt
    have : (2 : Nat) ^ (32 * (l.length + 1)) = 2 ^ 32 * 2 ^ (32 * l.length) := by
      rw [← Nat.pow_add]; congr 1; omega
    rw [limbsVal, List.length_cons, this]
    nlinarith

/-- Writing a number's limbs and reading their value gives the number back, cut to the register's
width. -/
theorem limbsVal_toLimbs (n v : Nat) : limbsVal (toLimbs n v) = v % 2 ^ (32 * n) := by
  induction n generalizing v with
  | zero => simp [toLimbs, limbsVal, Nat.mod_one]
  | succ n ih =>
    have : (2 : Nat) ^ (32 * (n + 1)) = 2 ^ 32 * 2 ^ (32 * n) := by
      rw [← Nat.pow_add]; congr 1; omega
    rw [toLimbs, limbsVal, ih, this, Nat.mod_mul]
    simp

theorem written_toLimbs (n v : Nat) : ((toLimbs n v).all fun l => l.written) = true := by
  induction n generalizing v with
  | zero => rfl
  | succ n ih => simp [toLimbs, ih]

/-- Limb i of a number is its bits [32*i+31 : 32*i] (rule R8). -/
theorem getD_toLimbs (n v i : Nat) (d : Limb) (h : i < n) :
    (toLimbs n v).getD i d = { val := BitVec.ofNat 32 (v / 2 ^ (32 * i)), written := true } := by
  induction n generalizing v i with
  | zero => omega
  | succ n ih =>
    cases i with
    | zero => simp [toLimbs]
    | succ i =>
      have hp : (2 : Nat) ^ (32 * (i + 1)) = 2 ^ 32 * 2 ^ (32 * i) := by
        rw [← Nat.pow_add]; congr 1; omega
      have := ih (v / 2 ^ 32) i (by omega)
      rw [toLimbs, List.getD_cons_succ, this, Nat.div_div_eq_div_mul, hp]

/-! ## Byte lanes -/

/-- The four lanes of a word make the word (rule R56). -/
theorem wordOfLanes_laneOf (w : Word) :
    wordOfLanes (laneOf w 0) (laneOf w 1) (laneOf w 2) (laneOf w 3) = w := by
  apply BitVec.eq_of_getLsbD_eq
  intro i hi
  simp only [wordOfLanes, laneOf, BitVec.getLsbD_append, BitVec.getLsbD_extractLsb']
  have : i < 8 ∨ (8 ≤ i ∧ i < 16) ∨ (16 ≤ i ∧ i < 24) ∨ (24 ≤ i ∧ i < 32) := by omega
  rcases this with h | ⟨h, h'⟩ | ⟨h, h'⟩ | ⟨h, h'⟩
  · simp [h]
  · simp [show ¬ i < 8 by omega, show i - 8 < 8 by omega, show 8 + (i - 8) = i by omega]
  · simp [show ¬ i < 8 by omega, show ¬ i - 8 < 8 by omega, show i - 8 - 8 < 8 by omega,
      show 16 + (i - 8 - 8) = i by omega]
  · simp [show ¬ i < 8 by omega, show ¬ i - 8 < 8 by omega, show ¬ i - 8 - 8 < 8 by omega,
      show i - 8 - 8 - 8 < 8 by omega, show 24 + (i - 8 - 8 - 8) = i by omega]

end Sys2Proof.Machine
end

