-- ==== Sys2Proof/Laws/State.lean ====
section
/-! SUPPORT. One lemma per field per update of the state, true by rfl, and the reads of X after each
update. -/

namespace Sys2Proof.Machine

variable (s : State)

/-! ## setXReg -/

@[simp] theorem State.setXReg_cfg (k : XName) (v : XReg) : (s.setXReg k v).cfg = s.cfg := rfl
@[simp] theorem State.setXReg_x (k : XName) (v : XReg) : (s.setXReg k v).x = s.x.set k.toNat v (xname_lt k) := rfl
@[simp] theorem State.setXReg_ie (k : XName) (v : XReg) : (s.setXReg k v).ie = s.ie := rfl
@[simp] theorem State.setXReg_done (k : XName) (v : XReg) : (s.setXReg k v).done = s.done := rfl
@[simp] theorem State.setXReg_prime (k : XName) (v : XReg) : (s.setXReg k v).prime = s.prime := rfl
@[simp] theorem State.setXReg_ovr (k : XName) (v : XReg) : (s.setXReg k v).ovr = s.ovr := rfl
@[simp] theorem State.setXReg_errcode (k : XName) (v : XReg) : (s.setXReg k v).errcode = s.errcode := rfl
@[simp] theorem State.setXReg_cmdLast (k : XName) (v : XReg) : (s.setXReg k v).cmdLast = s.cmdLast := rfl
@[simp] theorem State.setXReg_iters (k : XName) (v : XReg) : (s.setXReg k v).iters = s.iters := rfl
@[simp] theorem State.setXReg_bits (k : XName) (v : XReg) : (s.setXReg k v).bits = s.bits := rfl
@[simp] theorem State.setXReg_pbits (k : XName) (v : XReg) : (s.setXReg k v).pbits = s.pbits := rfl
@[simp] theorem State.setXReg_qbits (k : XName) (v : XReg) : (s.setXReg k v).qbits = s.qbits := rfl
@[simp] theorem State.setXReg_phase (k : XName) (v : XReg) : (s.setXReg k v).phase = s.phase := rfl
@[simp] theorem State.setXReg_draw (k : XName) (v : XReg) : (s.setXReg k v).draw = s.draw := rfl
@[simp] theorem State.setXReg_ack (k : XName) (v : XReg) : (s.setXReg k v).ack = s.ack := rfl
@[simp] theorem State.setXReg_resp (k : XName) (v : XReg) : (s.setXReg k v).resp = s.resp := rfl
@[simp] theorem State.setXReg_recorded (k : XName) (v : XReg) : (s.setXReg k v).recorded = s.recorded := rfl
@[simp] theorem State.setXReg_script (k : XName) (v : XReg) : (s.setXReg k v).script = s.script := rfl
@[simp] theorem State.setXReg_cycle (k : XName) (v : XReg) : (s.setXReg k v).cycle = s.cycle := rfl
@[simp] theorem State.setXReg_fresh (k : XName) (v : XReg) : (s.setXReg k v).fresh = s.fresh := rfl

/-! ## writeX -/

@[simp] theorem State.writeX_cfg (k : XName) (v : Nat) : (s.writeX k v).cfg = s.cfg := rfl
@[simp] theorem State.writeX_x (k : XName) (v : Nat) : (s.writeX k v).x = s.x.set k.toNat (toLimbs s.cfg.nlimbs v) (xname_lt k) := rfl
@[simp] theorem State.writeX_ie (k : XName) (v : Nat) : (s.writeX k v).ie = s.ie := rfl
@[simp] theorem State.writeX_done (k : XName) (v : Nat) : (s.writeX k v).done = s.done := rfl
@[simp] theorem State.writeX_prime (k : XName) (v : Nat) : (s.writeX k v).prime = s.prime := rfl
@[simp] theorem State.writeX_ovr (k : XName) (v : Nat) : (s.writeX k v).ovr = s.ovr := rfl
@[simp] theorem State.writeX_errcode (k : XName) (v : Nat) : (s.writeX k v).errcode = s.errcode := rfl
@[simp] theorem State.writeX_cmdLast (k : XName) (v : Nat) : (s.writeX k v).cmdLast = s.cmdLast := rfl
@[simp] theorem State.writeX_iters (k : XName) (v : Nat) : (s.writeX k v).iters = s.iters := rfl
@[simp] theorem State.writeX_bits (k : XName) (v : Nat) : (s.writeX k v).bits = s.bits := rfl
@[simp] theorem State.writeX_pbits (k : XName) (v : Nat) : (s.writeX k v).pbits = s.pbits := rfl
@[simp] theorem State.writeX_qbits (k : XName) (v : Nat) : (s.writeX k v).qbits = s.qbits := rfl
@[simp] theorem State.writeX_phase (k : XName) (v : Nat) : (s.writeX k v).phase = s.phase := rfl
@[simp] theorem State.writeX_draw (k : XName) (v : Nat) : (s.writeX k v).draw = s.draw := rfl
@[simp] theorem State.writeX_ack (k : XName) (v : Nat) : (s.writeX k v).ack = s.ack := rfl
@[simp] theorem State.writeX_resp (k : XName) (v : Nat) : (s.writeX k v).resp = s.resp := rfl
@[simp] theorem State.writeX_recorded (k : XName) (v : Nat) : (s.writeX k v).recorded = s.recorded := rfl
@[simp] theorem State.writeX_script (k : XName) (v : Nat) : (s.writeX k v).script = s.script := rfl
@[simp] theorem State.writeX_cycle (k : XName) (v : Nat) : (s.writeX k v).cycle = s.cycle := rfl
@[simp] theorem State.writeX_fresh (k : XName) (v : Nat) : (s.writeX k v).fresh = s.fresh := rfl

/-! ## writeLimb -/

@[simp] theorem State.writeLimb_cfg (k : XName) (i : Nat) (w : Word) : (s.writeLimb k i w).cfg = s.cfg := rfl
@[simp] theorem State.writeLimb_ie (k : XName) (i : Nat) (w : Word) : (s.writeLimb k i w).ie = s.ie := rfl
@[simp] theorem State.writeLimb_done (k : XName) (i : Nat) (w : Word) : (s.writeLimb k i w).done = s.done := rfl
@[simp] theorem State.writeLimb_prime (k : XName) (i : Nat) (w : Word) : (s.writeLimb k i w).prime = s.prime := rfl
@[simp] theorem State.writeLimb_ovr (k : XName) (i : Nat) (w : Word) : (s.writeLimb k i w).ovr = s.ovr := rfl
@[simp] theorem State.writeLimb_errcode (k : XName) (i : Nat) (w : Word) : (s.writeLimb k i w).errcode = s.errcode := rfl
@[simp] theorem State.writeLimb_cmdLast (k : XName) (i : Nat) (w : Word) : (s.writeLimb k i w).cmdLast = s.cmdLast := rfl
@[simp] theorem State.writeLimb_iters (k : XName) (i : Nat) (w : Word) : (s.writeLimb k i w).iters = s.iters := rfl
@[simp] theorem State.writeLimb_bits (k : XName) (i : Nat) (w : Word) : (s.writeLimb k i w).bits = s.bits := rfl
@[simp] theorem State.writeLimb_pbits (k : XName) (i : Nat) (w : Word) : (s.writeLimb k i w).pbits = s.pbits := rfl
@[simp] theorem State.writeLimb_qbits (k : XName) (i : Nat) (w : Word) : (s.writeLimb k i w).qbits = s.qbits := rfl
@[simp] theorem State.writeLimb_phase (k : XName) (i : Nat) (w : Word) : (s.writeLimb k i w).phase = s.phase := rfl
@[simp] theorem State.writeLimb_draw (k : XName) (i : Nat) (w : Word) : (s.writeLimb k i w).draw = s.draw := rfl
@[simp] theorem State.writeLimb_ack (k : XName) (i : Nat) (w : Word) : (s.writeLimb k i w).ack = s.ack := rfl
@[simp] theorem State.writeLimb_resp (k : XName) (i : Nat) (w : Word) : (s.writeLimb k i w).resp = s.resp := rfl
@[simp] theorem State.writeLimb_recorded (k : XName) (i : Nat) (w : Word) : (s.writeLimb k i w).recorded = s.recorded := rfl
@[simp] theorem State.writeLimb_script (k : XName) (i : Nat) (w : Word) : (s.writeLimb k i w).script = s.script := rfl
@[simp] theorem State.writeLimb_cycle (k : XName) (i : Nat) (w : Word) : (s.writeLimb k i w).cycle = s.cycle := rfl
@[simp] theorem State.writeLimb_fresh (k : XName) (i : Nat) (w : Word) : (s.writeLimb k i w).fresh = s.fresh := rfl

/-! ## recordUnwritten -/

@[simp] theorem State.recordUnwritten_cfg : (s.recordUnwritten).cfg = s.cfg := rfl
@[simp] theorem State.recordUnwritten_x : (s.recordUnwritten).x = s.x := rfl
@[simp] theorem State.recordUnwritten_ie : (s.recordUnwritten).ie = s.ie := rfl
@[simp] theorem State.recordUnwritten_done : (s.recordUnwritten).done = s.done := rfl
@[simp] theorem State.recordUnwritten_prime : (s.recordUnwritten).prime = s.prime := rfl
@[simp] theorem State.recordUnwritten_ovr : (s.recordUnwritten).ovr = s.ovr := rfl
@[simp] theorem State.recordUnwritten_errcode : (s.recordUnwritten).errcode = s.errcode := rfl
@[simp] theorem State.recordUnwritten_cmdLast : (s.recordUnwritten).cmdLast = s.cmdLast := rfl
@[simp] theorem State.recordUnwritten_iters : (s.recordUnwritten).iters = s.iters := rfl
@[simp] theorem State.recordUnwritten_bits : (s.recordUnwritten).bits = s.bits := rfl
@[simp] theorem State.recordUnwritten_pbits : (s.recordUnwritten).pbits = s.pbits := rfl
@[simp] theorem State.recordUnwritten_qbits : (s.recordUnwritten).qbits = s.qbits := rfl
@[simp] theorem State.recordUnwritten_phase : (s.recordUnwritten).phase = s.phase := rfl
@[simp] theorem State.recordUnwritten_draw : (s.recordUnwritten).draw = s.draw := rfl
@[simp] theorem State.recordUnwritten_ack : (s.recordUnwritten).ack = s.ack := rfl
@[simp] theorem State.recordUnwritten_resp : (s.recordUnwritten).resp = s.resp := rfl
@[simp] theorem State.recordUnwritten_recorded : (s.recordUnwritten).recorded = some .unwrittenRead := rfl
@[simp] theorem State.recordUnwritten_script : (s.recordUnwritten).script = s.script := rfl
@[simp] theorem State.recordUnwritten_cycle : (s.recordUnwritten).cycle = s.cycle := rfl
@[simp] theorem State.recordUnwritten_fresh : (s.recordUnwritten).fresh = s.fresh := rfl

/-! ## accept -/

@[simp] theorem State.accept_cfg (c : Word) (r : Running) : (s.accept c r).cfg = s.cfg := rfl
@[simp] theorem State.accept_x (c : Word) (r : Running) : (s.accept c r).x = s.x := rfl
@[simp] theorem State.accept_ie (c : Word) (r : Running) : (s.accept c r).ie = s.ie := rfl
@[simp] theorem State.accept_done (c : Word) (r : Running) : (s.accept c r).done = false := rfl
@[simp] theorem State.accept_prime (c : Word) (r : Running) : (s.accept c r).prime = s.prime := rfl
@[simp] theorem State.accept_ovr (c : Word) (r : Running) : (s.accept c r).ovr = s.ovr := rfl
@[simp] theorem State.accept_errcode (c : Word) (r : Running) : (s.accept c r).errcode = .noError := rfl
@[simp] theorem State.accept_cmdLast (c : Word) (r : Running) : (s.accept c r).cmdLast = c := rfl
@[simp] theorem State.accept_iters (c : Word) (r : Running) : (s.accept c r).iters = s.iters := rfl
@[simp] theorem State.accept_bits (c : Word) (r : Running) : (s.accept c r).bits = s.bits := rfl
@[simp] theorem State.accept_pbits (c : Word) (r : Running) : (s.accept c r).pbits = s.pbits := rfl
@[simp] theorem State.accept_qbits (c : Word) (r : Running) : (s.accept c r).qbits = s.qbits := rfl
@[simp] theorem State.accept_phase (c : Word) (r : Running) : (s.accept c r).phase = .busy r := rfl
@[simp] theorem State.accept_draw (c : Word) (r : Running) : (s.accept c r).draw = s.draw := rfl
@[simp] theorem State.accept_ack (c : Word) (r : Running) : (s.accept c r).ack = s.ack := rfl
@[simp] theorem State.accept_resp (c : Word) (r : Running) : (s.accept c r).resp = s.resp := rfl
@[simp] theorem State.accept_recorded (c : Word) (r : Running) : (s.accept c r).recorded = s.recorded := rfl
@[simp] theorem State.accept_script (c : Word) (r : Running) : (s.accept c r).script = s.script := rfl
@[simp] theorem State.accept_cycle (c : Word) (r : Running) : (s.accept c r).cycle = s.cycle := rfl
@[simp] theorem State.accept_fresh (c : Word) (r : Running) : (s.accept c r).fresh = s.fresh := rfl

/-! ## dropWrite -/

@[simp] theorem State.dropWrite_cfg : (s.dropWrite).cfg = s.cfg := rfl
@[simp] theorem State.dropWrite_x : (s.dropWrite).x = s.x := rfl
@[simp] theorem State.dropWrite_ie : (s.dropWrite).ie = s.ie := rfl
@[simp] theorem State.dropWrite_done : (s.dropWrite).done = s.done := rfl
@[simp] theorem State.dropWrite_prime : (s.dropWrite).prime = s.prime := rfl
@[simp] theorem State.dropWrite_ovr : (s.dropWrite).ovr = true := rfl
@[simp] theorem State.dropWrite_errcode : (s.dropWrite).errcode = s.errcode := rfl
@[simp] theorem State.dropWrite_cmdLast : (s.dropWrite).cmdLast = s.cmdLast := rfl
@[simp] theorem State.dropWrite_iters : (s.dropWrite).iters = s.iters := rfl
@[simp] theorem State.dropWrite_bits : (s.dropWrite).bits = s.bits := rfl
@[simp] theorem State.dropWrite_pbits : (s.dropWrite).pbits = s.pbits := rfl
@[simp] theorem State.dropWrite_qbits : (s.dropWrite).qbits = s.qbits := rfl
@[simp] theorem State.dropWrite_phase : (s.dropWrite).phase = s.phase := rfl
@[simp] theorem State.dropWrite_draw : (s.dropWrite).draw = s.draw := rfl
@[simp] theorem State.dropWrite_ack : (s.dropWrite).ack = s.ack := rfl
@[simp] theorem State.dropWrite_resp : (s.dropWrite).resp = s.resp := rfl
@[simp] theorem State.dropWrite_recorded : (s.dropWrite).recorded = s.recorded := rfl
@[simp] theorem State.dropWrite_script : (s.dropWrite).script = s.script := rfl
@[simp] theorem State.dropWrite_cycle : (s.dropWrite).cycle = s.cycle := rfl
@[simp] theorem State.dropWrite_fresh : (s.dropWrite).fresh = s.fresh := rfl

/-! ## complete -/

@[simp] theorem State.complete_cfg : (s.complete).cfg = s.cfg := rfl
@[simp] theorem State.complete_x : (s.complete).x = s.x := rfl
@[simp] theorem State.complete_ie : (s.complete).ie = s.ie := rfl
@[simp] theorem State.complete_done : (s.complete).done = true := rfl
@[simp] theorem State.complete_prime : (s.complete).prime = s.prime := rfl
@[simp] theorem State.complete_ovr : (s.complete).ovr = s.ovr := rfl
@[simp] theorem State.complete_errcode : (s.complete).errcode = .noError := rfl
@[simp] theorem State.complete_cmdLast : (s.complete).cmdLast = s.cmdLast := rfl
@[simp] theorem State.complete_iters : (s.complete).iters = s.iters := rfl
@[simp] theorem State.complete_bits : (s.complete).bits = s.bits := rfl
@[simp] theorem State.complete_pbits : (s.complete).pbits = s.pbits := rfl
@[simp] theorem State.complete_qbits : (s.complete).qbits = s.qbits := rfl
@[simp] theorem State.complete_phase : (s.complete).phase = .idle := rfl
@[simp] theorem State.complete_draw : (s.complete).draw = none := rfl
@[simp] theorem State.complete_ack : (s.complete).ack = none := rfl
@[simp] theorem State.complete_resp : (s.complete).resp = s.resp := rfl
@[simp] theorem State.complete_recorded : (s.complete).recorded = s.recorded := rfl
@[simp] theorem State.complete_script : (s.complete).script = s.script := rfl
@[simp] theorem State.complete_cycle : (s.complete).cycle = s.cycle := rfl
@[simp] theorem State.complete_fresh : (s.complete).fresh = s.fresh := rfl

/-! ## raiseError -/

@[simp] theorem State.raiseError_cfg (e : ErrCode) : (s.raiseError e).cfg = s.cfg := rfl
@[simp] theorem State.raiseError_x (e : ErrCode) : (s.raiseError e).x = s.x := rfl
@[simp] theorem State.raiseError_ie (e : ErrCode) : (s.raiseError e).ie = s.ie := rfl
@[simp] theorem State.raiseError_done (e : ErrCode) : (s.raiseError e).done = true := rfl
@[simp] theorem State.raiseError_prime (e : ErrCode) : (s.raiseError e).prime = s.prime := rfl
@[simp] theorem State.raiseError_ovr (e : ErrCode) : (s.raiseError e).ovr = s.ovr := rfl
@[simp] theorem State.raiseError_errcode (e : ErrCode) : (s.raiseError e).errcode = e := rfl
@[simp] theorem State.raiseError_cmdLast (e : ErrCode) : (s.raiseError e).cmdLast = s.cmdLast := rfl
@[simp] theorem State.raiseError_iters (e : ErrCode) : (s.raiseError e).iters = s.iters := rfl
@[simp] theorem State.raiseError_bits (e : ErrCode) : (s.raiseError e).bits = s.bits := rfl
@[simp] theorem State.raiseError_pbits (e : ErrCode) : (s.raiseError e).pbits = s.pbits := rfl
@[simp] theorem State.raiseError_qbits (e : ErrCode) : (s.raiseError e).qbits = s.qbits := rfl
@[simp] theorem State.raiseError_phase (e : ErrCode) : (s.raiseError e).phase = .idle := rfl
@[simp] theorem State.raiseError_draw (e : ErrCode) : (s.raiseError e).draw = none := rfl
@[simp] theorem State.raiseError_ack (e : ErrCode) : (s.raiseError e).ack = none := rfl
@[simp] theorem State.raiseError_resp (e : ErrCode) : (s.raiseError e).resp = s.resp := rfl
@[simp] theorem State.raiseError_recorded (e : ErrCode) : (s.raiseError e).recorded = s.recorded := rfl
@[simp] theorem State.raiseError_script (e : ErrCode) : (s.raiseError e).script = s.script := rfl
@[simp] theorem State.raiseError_cycle (e : ErrCode) : (s.raiseError e).cycle = s.cycle := rfl
@[simp] theorem State.raiseError_fresh (e : ErrCode) : (s.raiseError e).fresh = s.fresh := rfl

/-! ## writeStatus -/

@[simp] theorem State.writeStatus_cfg (v : Word) : (s.writeStatus v).cfg = s.cfg := rfl
@[simp] theorem State.writeStatus_x (v : Word) : (s.writeStatus v).x = s.x := rfl
@[simp] theorem State.writeStatus_ie (v : Word) : (s.writeStatus v).ie = s.ie := rfl
@[simp] theorem State.writeStatus_done (v : Word) : (s.writeStatus v).done = (s.done && !v.getLsbD 1) := rfl
@[simp] theorem State.writeStatus_prime (v : Word) : (s.writeStatus v).prime = s.prime := rfl
@[simp] theorem State.writeStatus_ovr (v : Word) : (s.writeStatus v).ovr = (s.ovr && !v.getLsbD 4) := rfl
@[simp] theorem State.writeStatus_errcode (v : Word) : (s.writeStatus v).errcode = s.errcode := rfl
@[simp] theorem State.writeStatus_cmdLast (v : Word) : (s.writeStatus v).cmdLast = s.cmdLast := rfl
@[simp] theorem State.writeStatus_iters (v : Word) : (s.writeStatus v).iters = s.iters := rfl
@[simp] theorem State.writeStatus_bits (v : Word) : (s.writeStatus v).bits = s.bits := rfl
@[simp] theorem State.writeStatus_pbits (v : Word) : (s.writeStatus v).pbits = s.pbits := rfl
@[simp] theorem State.writeStatus_qbits (v : Word) : (s.writeStatus v).qbits = s.qbits := rfl
@[simp] theorem State.writeStatus_phase (v : Word) : (s.writeStatus v).phase = s.phase := rfl
@[simp] theorem State.writeStatus_draw (v : Word) : (s.writeStatus v).draw = s.draw := rfl
@[simp] theorem State.writeStatus_ack (v : Word) : (s.writeStatus v).ack = s.ack := rfl
@[simp] theorem State.writeStatus_resp (v : Word) : (s.writeStatus v).resp = s.resp := rfl
@[simp] theorem State.writeStatus_recorded (v : Word) : (s.writeStatus v).recorded = s.recorded := rfl
@[simp] theorem State.writeStatus_script (v : Word) : (s.writeStatus v).script = s.script := rfl
@[simp] theorem State.writeStatus_cycle (v : Word) : (s.writeStatus v).cycle = s.cycle := rfl
@[simp] theorem State.writeStatus_fresh (v : Word) : (s.writeStatus v).fresh = s.fresh := rfl

/-! ## writeCtrl -/

@[simp] theorem State.writeCtrl_cfg (v : Word) : (s.writeCtrl v).cfg = s.cfg := rfl
@[simp] theorem State.writeCtrl_x (v : Word) : (s.writeCtrl v).x = s.x := rfl
@[simp] theorem State.writeCtrl_ie (v : Word) : (s.writeCtrl v).ie = v.getLsbD 0 := rfl
@[simp] theorem State.writeCtrl_done (v : Word) : (s.writeCtrl v).done = s.done := rfl
@[simp] theorem State.writeCtrl_prime (v : Word) : (s.writeCtrl v).prime = s.prime := rfl
@[simp] theorem State.writeCtrl_ovr (v : Word) : (s.writeCtrl v).ovr = s.ovr := rfl
@[simp] theorem State.writeCtrl_errcode (v : Word) : (s.writeCtrl v).errcode = s.errcode := rfl
@[simp] theorem State.writeCtrl_cmdLast (v : Word) : (s.writeCtrl v).cmdLast = s.cmdLast := rfl
@[simp] theorem State.writeCtrl_iters (v : Word) : (s.writeCtrl v).iters = s.iters := rfl
@[simp] theorem State.writeCtrl_bits (v : Word) : (s.writeCtrl v).bits = s.bits := rfl
@[simp] theorem State.writeCtrl_pbits (v : Word) : (s.writeCtrl v).pbits = s.pbits := rfl
@[simp] theorem State.writeCtrl_qbits (v : Word) : (s.writeCtrl v).qbits = s.qbits := rfl
@[simp] theorem State.writeCtrl_phase (v : Word) : (s.writeCtrl v).phase = s.phase := rfl
@[simp] theorem State.writeCtrl_draw (v : Word) : (s.writeCtrl v).draw = s.draw := rfl
@[simp] theorem State.writeCtrl_ack (v : Word) : (s.writeCtrl v).ack = s.ack := rfl
@[simp] theorem State.writeCtrl_resp (v : Word) : (s.writeCtrl v).resp = s.resp := rfl
@[simp] theorem State.writeCtrl_recorded (v : Word) : (s.writeCtrl v).recorded = s.recorded := rfl
@[simp] theorem State.writeCtrl_script (v : Word) : (s.writeCtrl v).script = s.script := rfl
@[simp] theorem State.writeCtrl_cycle (v : Word) : (s.writeCtrl v).cycle = s.cycle := rfl
@[simp] theorem State.writeCtrl_fresh (v : Word) : (s.writeCtrl v).fresh = s.fresh := rfl

/-! ## writePrime -/

@[simp] theorem State.writePrime_cfg (b : Bool) : (s.writePrime b).cfg = s.cfg := rfl
@[simp] theorem State.writePrime_x (b : Bool) : (s.writePrime b).x = s.x := rfl
@[simp] theorem State.writePrime_ie (b : Bool) : (s.writePrime b).ie = s.ie := rfl
@[simp] theorem State.writePrime_done (b : Bool) : (s.writePrime b).done = s.done := rfl
@[simp] theorem State.writePrime_prime (b : Bool) : (s.writePrime b).prime = b := rfl
@[simp] theorem State.writePrime_ovr (b : Bool) : (s.writePrime b).ovr = s.ovr := rfl
@[simp] theorem State.writePrime_errcode (b : Bool) : (s.writePrime b).errcode = s.errcode := rfl
@[simp] theorem State.writePrime_cmdLast (b : Bool) : (s.writePrime b).cmdLast = s.cmdLast := rfl
@[simp] theorem State.writePrime_iters (b : Bool) : (s.writePrime b).iters = s.iters := rfl
@[simp] theorem State.writePrime_bits (b : Bool) : (s.writePrime b).bits = s.bits := rfl
@[simp] theorem State.writePrime_pbits (b : Bool) : (s.writePrime b).pbits = s.pbits := rfl
@[simp] theorem State.writePrime_qbits (b : Bool) : (s.writePrime b).qbits = s.qbits := rfl
@[simp] theorem State.writePrime_phase (b : Bool) : (s.writePrime b).phase = s.phase := rfl
@[simp] theorem State.writePrime_draw (b : Bool) : (s.writePrime b).draw = s.draw := rfl
@[simp] theorem State.writePrime_ack (b : Bool) : (s.writePrime b).ack = s.ack := rfl
@[simp] theorem State.writePrime_resp (b : Bool) : (s.writePrime b).resp = s.resp := rfl
@[simp] theorem State.writePrime_recorded (b : Bool) : (s.writePrime b).recorded = s.recorded := rfl
@[simp] theorem State.writePrime_script (b : Bool) : (s.writePrime b).script = s.script := rfl
@[simp] theorem State.writePrime_cycle (b : Bool) : (s.writePrime b).cycle = s.cycle := rfl
@[simp] theorem State.writePrime_fresh (b : Bool) : (s.writePrime b).fresh = s.fresh := rfl

/-! ## writeSplit -/

@[simp] theorem State.writeSplit_cfg (r : Nat × Nat) : (s.writeSplit r).cfg = s.cfg := rfl
@[simp] theorem State.writeSplit_x (r : Nat × Nat) : (s.writeSplit r).x = s.x := rfl
@[simp] theorem State.writeSplit_ie (r : Nat × Nat) : (s.writeSplit r).ie = s.ie := rfl
@[simp] theorem State.writeSplit_done (r : Nat × Nat) : (s.writeSplit r).done = s.done := rfl
@[simp] theorem State.writeSplit_prime (r : Nat × Nat) : (s.writeSplit r).prime = s.prime := rfl
@[simp] theorem State.writeSplit_ovr (r : Nat × Nat) : (s.writeSplit r).ovr = s.ovr := rfl
@[simp] theorem State.writeSplit_errcode (r : Nat × Nat) : (s.writeSplit r).errcode = s.errcode := rfl
@[simp] theorem State.writeSplit_cmdLast (r : Nat × Nat) : (s.writeSplit r).cmdLast = s.cmdLast := rfl
@[simp] theorem State.writeSplit_iters (r : Nat × Nat) : (s.writeSplit r).iters = s.iters := rfl
@[simp] theorem State.writeSplit_bits (r : Nat × Nat) : (s.writeSplit r).bits = s.bits := rfl
@[simp] theorem State.writeSplit_pbits (r : Nat × Nat) : (s.writeSplit r).pbits = BitVec.ofNat 32 r.1 := rfl
@[simp] theorem State.writeSplit_qbits (r : Nat × Nat) : (s.writeSplit r).qbits = BitVec.ofNat 32 r.2 := rfl
@[simp] theorem State.writeSplit_phase (r : Nat × Nat) : (s.writeSplit r).phase = s.phase := rfl
@[simp] theorem State.writeSplit_draw (r : Nat × Nat) : (s.writeSplit r).draw = s.draw := rfl
@[simp] theorem State.writeSplit_ack (r : Nat × Nat) : (s.writeSplit r).ack = s.ack := rfl
@[simp] theorem State.writeSplit_resp (r : Nat × Nat) : (s.writeSplit r).resp = s.resp := rfl
@[simp] theorem State.writeSplit_recorded (r : Nat × Nat) : (s.writeSplit r).recorded = s.recorded := rfl
@[simp] theorem State.writeSplit_script (r : Nat × Nat) : (s.writeSplit r).script = s.script := rfl
@[simp] theorem State.writeSplit_cycle (r : Nat × Nat) : (s.writeSplit r).cycle = s.cycle := rfl
@[simp] theorem State.writeSplit_fresh (r : Nat × Nat) : (s.writeSplit r).fresh = s.fresh := rfl

/-! ## respond -/

@[simp] theorem State.respond_cfg (e : Bool) (d : Option Word) : (s.respond e d).cfg = s.cfg := rfl
@[simp] theorem State.respond_x (e : Bool) (d : Option Word) : (s.respond e d).x = s.x := rfl
@[simp] theorem State.respond_ie (e : Bool) (d : Option Word) : (s.respond e d).ie = s.ie := rfl
@[simp] theorem State.respond_done (e : Bool) (d : Option Word) : (s.respond e d).done = s.done := rfl
@[simp] theorem State.respond_prime (e : Bool) (d : Option Word) : (s.respond e d).prime = s.prime := rfl
@[simp] theorem State.respond_ovr (e : Bool) (d : Option Word) : (s.respond e d).ovr = s.ovr := rfl
@[simp] theorem State.respond_errcode (e : Bool) (d : Option Word) : (s.respond e d).errcode = s.errcode := rfl
@[simp] theorem State.respond_cmdLast (e : Bool) (d : Option Word) : (s.respond e d).cmdLast = s.cmdLast := rfl
@[simp] theorem State.respond_iters (e : Bool) (d : Option Word) : (s.respond e d).iters = s.iters := rfl
@[simp] theorem State.respond_bits (e : Bool) (d : Option Word) : (s.respond e d).bits = s.bits := rfl
@[simp] theorem State.respond_pbits (e : Bool) (d : Option Word) : (s.respond e d).pbits = s.pbits := rfl
@[simp] theorem State.respond_qbits (e : Bool) (d : Option Word) : (s.respond e d).qbits = s.qbits := rfl
@[simp] theorem State.respond_phase (e : Bool) (d : Option Word) : (s.respond e d).phase = s.phase := rfl
@[simp] theorem State.respond_draw (e : Bool) (d : Option Word) : (s.respond e d).draw = s.draw := rfl
@[simp] theorem State.respond_ack (e : Bool) (d : Option Word) : (s.respond e d).ack = s.ack := rfl
@[simp] theorem State.respond_resp (e : Bool) (d : Option Word) : (s.respond e d).resp = some { err := e, rdata := d } := rfl
@[simp] theorem State.respond_recorded (e : Bool) (d : Option Word) : (s.respond e d).recorded = s.recorded := rfl
@[simp] theorem State.respond_script (e : Bool) (d : Option Word) : (s.respond e d).script = s.script := rfl
@[simp] theorem State.respond_cycle (e : Bool) (d : Option Word) : (s.respond e d).cycle = s.cycle := rfl
@[simp] theorem State.respond_fresh (e : Bool) (d : Option Word) : (s.respond e d).fresh = s.fresh := rfl

/-! ## afterTurn -/

@[simp] theorem State.afterTurn_script : s.afterTurn.script = s.turn.2 := rfl
@[simp] theorem State.afterTurn_cfg : s.afterTurn.cfg = s.cfg := rfl
@[simp] theorem State.afterTurn_x : s.afterTurn.x = s.x := rfl
@[simp] theorem State.afterTurn_ie : s.afterTurn.ie = s.ie := rfl
@[simp] theorem State.afterTurn_done : s.afterTurn.done = s.done := rfl
@[simp] theorem State.afterTurn_prime : s.afterTurn.prime = s.prime := rfl
@[simp] theorem State.afterTurn_ovr : s.afterTurn.ovr = s.ovr := rfl
@[simp] theorem State.afterTurn_errcode : s.afterTurn.errcode = s.errcode := rfl
@[simp] theorem State.afterTurn_cmdLast : s.afterTurn.cmdLast = s.cmdLast := rfl
@[simp] theorem State.afterTurn_iters : s.afterTurn.iters = s.iters := rfl
@[simp] theorem State.afterTurn_bits : s.afterTurn.bits = s.bits := rfl
@[simp] theorem State.afterTurn_pbits : s.afterTurn.pbits = s.pbits := rfl
@[simp] theorem State.afterTurn_qbits : s.afterTurn.qbits = s.qbits := rfl
@[simp] theorem State.afterTurn_phase : s.afterTurn.phase = s.phase := rfl
@[simp] theorem State.afterTurn_draw : s.afterTurn.draw = s.draw := rfl
@[simp] theorem State.afterTurn_ack : s.afterTurn.ack = s.ack := rfl
@[simp] theorem State.afterTurn_resp : s.afterTurn.resp = s.resp := rfl
@[simp] theorem State.afterTurn_recorded : s.afterTurn.recorded = s.recorded := rfl
@[simp] theorem State.afterTurn_cycle : s.afterTurn.cycle = s.cycle := rfl
@[simp] theorem State.afterTurn_fresh : s.afterTurn.fresh = s.fresh := rfl

/-! ## Reads of X -/

@[simp] theorem State.xreg_setXReg (k k' : XName) (v : XReg) :
    (s.setXReg k v).xreg k' = if k' = k then v else s.xreg k' := by
  unfold State.xreg State.setXReg
  simp only [Vector.getElem_set]
  by_cases h : k' = k
  · simp [h]
  · have : ¬ k.toNat = k'.toNat := fun e => h (BitVec.eq_of_toNat_eq e.symm)
    simp [h, this]

/-- Two states with the same X file hold the same registers. -/
theorem State.xreg_congr {s t : State} (h : s.x = t.x) (k : XName) : s.xreg k = t.xreg k := by
  simp only [State.xreg, h]

theorem State.xval_congr {s t : State} (h : s.x = t.x) (k : XName) : s.xval k = t.xval k := by
  rw [State.xval, State.xval, State.xreg_congr h]

theorem State.limb_congr {s t : State} (h : s.x = t.x) (k : XName) (i : Nat) : s.limb k i = t.limb k i := by
  rw [State.limb, State.limb, State.xreg_congr h]

theorem State.xWritten_congr {s t : State} (h : s.x = t.x) (k : XName) : s.xWritten k = t.xWritten k := by
  rw [State.xWritten, State.xWritten, State.xreg_congr h]

/-- A register after `X[k] <- v` (rule R8). -/
@[simp] theorem State.xreg_writeX (k k' : XName) (v : Nat) :
    (s.writeX k v).xreg k' = if k' = k then toLimbs s.cfg.nlimbs v else s.xreg k' := by
  simp [State.writeX]

/-- The value of a register after `X[k] <- v` (rule R8). -/
theorem State.xval_writeX (k k' : XName) (v : Nat) :
    (s.writeX k v).xval k' = if k' = k then v % 2 ^ s.cfg.width else s.xval k' := by
  simp only [State.xval, State.xreg_writeX]
  split
  · rw [limbsVal_toLimbs, Config.width]
  · rfl

/-- A value that fits the register's width is held whole. -/
theorem State.xval_writeX_self (k : XName) {v : Nat} (h : v < 2 ^ s.cfg.width) :
    (s.writeX k v).xval k = v := by
  rw [State.xval_writeX, if_pos rfl, Nat.mod_eq_of_lt h]

/-- A register after a host write of one limb. -/
@[simp] theorem State.xreg_writeLimb (k k' : XName) (i : Nat) (w : Word) :
    (s.writeLimb k i w).xreg k' =
      if k' = k then (s.xreg k).set i { val := w, written := true } else s.xreg k' := by
  simp [State.writeLimb]

/-- A limb after a host write of one limb (rule R59). -/
theorem State.limb_writeLimb (k k' : XName) (i j : Nat) (w : Word) (h : i < (s.xreg k).length) :
    (s.writeLimb k i w).limb k' j =
      if k' = k ∧ j = i then { val := w, written := true } else s.limb k' j := by
  unfold State.limb
  by_cases hk : k' = k
  · subst hk
    by_cases hj : j = i
    · subst hj
      simp [List.getD, h]
    · have : ¬ i = j := fun e => hj e.symm
      simp [hj, List.getD, this]
  · simp [hk]

/-- Every limb of a register that a command has written is written (rule R27). -/
theorem State.xWritten_writeX (k : XName) (v : Nat) : (s.writeX k v).xWritten k = true := by
  simp [State.xWritten, written_toLimbs]

/-- A value read from a register fits the register's width. -/
theorem State.xval_lt (k : XName) (h : (s.xreg k).length = s.cfg.nlimbs) : s.xval k < 2 ^ s.cfg.width := by
  have := limbsVal_lt (s.xreg k)
  rw [h] at this
  exact this

/-! ## The snapshot mark -/

/-- The snapshot mark touches nothing but the recorded fault (rule R169). -/
theorem State.markSnapshot_eq (ks : List XName) :
    s.markSnapshot ks = s ∨ s.markSnapshot ks = s.recordUnwritten := by
  unfold State.markSnapshot
  split
  · exact .inl rfl
  · exact .inr rfl

@[simp] theorem State.markSnapshot_cfg (ks : List XName) : (s.markSnapshot ks).cfg = s.cfg := by
  unfold State.markSnapshot; split <;> rfl
@[simp] theorem State.markSnapshot_x (ks : List XName) : (s.markSnapshot ks).x = s.x := by
  unfold State.markSnapshot; split <;> rfl
@[simp] theorem State.markSnapshot_ie (ks : List XName) : (s.markSnapshot ks).ie = s.ie := by
  unfold State.markSnapshot; split <;> rfl
@[simp] theorem State.markSnapshot_done (ks : List XName) : (s.markSnapshot ks).done = s.done := by
  unfold State.markSnapshot; split <;> rfl
@[simp] theorem State.markSnapshot_prime (ks : List XName) : (s.markSnapshot ks).prime = s.prime := by
  unfold State.markSnapshot; split <;> rfl
@[simp] theorem State.markSnapshot_ovr (ks : List XName) : (s.markSnapshot ks).ovr = s.ovr := by
  unfold State.markSnapshot; split <;> rfl
@[simp] theorem State.markSnapshot_errcode (ks : List XName) : (s.markSnapshot ks).errcode = s.errcode := by
  unfold State.markSnapshot; split <;> rfl
@[simp] theorem State.markSnapshot_cmdLast (ks : List XName) : (s.markSnapshot ks).cmdLast = s.cmdLast := by
  unfold State.markSnapshot; split <;> rfl
@[simp] theorem State.markSnapshot_iters (ks : List XName) : (s.markSnapshot ks).iters = s.iters := by
  unfold State.markSnapshot; split <;> rfl
@[simp] theorem State.markSnapshot_bits (ks : List XName) : (s.markSnapshot ks).bits = s.bits := by
  unfold State.markSnapshot; split <;> rfl
@[simp] theorem State.markSnapshot_pbits (ks : List XName) : (s.markSnapshot ks).pbits = s.pbits := by
  unfold State.markSnapshot; split <;> rfl
@[simp] theorem State.markSnapshot_qbits (ks : List XName) : (s.markSnapshot ks).qbits = s.qbits := by
  unfold State.markSnapshot; split <;> rfl
@[simp] theorem State.markSnapshot_phase (ks : List XName) : (s.markSnapshot ks).phase = s.phase := by
  unfold State.markSnapshot; split <;> rfl
@[simp] theorem State.markSnapshot_draw (ks : List XName) : (s.markSnapshot ks).draw = s.draw := by
  unfold State.markSnapshot; split <;> rfl
@[simp] theorem State.markSnapshot_ack (ks : List XName) : (s.markSnapshot ks).ack = s.ack := by
  unfold State.markSnapshot; split <;> rfl
@[simp] theorem State.markSnapshot_resp (ks : List XName) : (s.markSnapshot ks).resp = s.resp := by
  unfold State.markSnapshot; split <;> rfl
@[simp] theorem State.markSnapshot_script (ks : List XName) : (s.markSnapshot ks).script = s.script := by
  unfold State.markSnapshot; split <;> rfl
@[simp] theorem State.markSnapshot_cycle (ks : List XName) : (s.markSnapshot ks).cycle = s.cycle := by
  unfold State.markSnapshot; split <;> rfl
@[simp] theorem State.markSnapshot_fresh (ks : List XName) : (s.markSnapshot ks).fresh = s.fresh := by
  unfold State.markSnapshot; split <;> rfl

/-! ## Flags -/

@[simp] theorem State.busy_iff : s.busy = true ↔ ∃ r, s.phase = .busy r := by
  unfold State.busy
  split <;> simp_all

@[simp] theorem State.not_busy_iff : s.busy = false ↔ s.phase = .idle := by
  unfold State.busy
  split <;> simp_all

end Sys2Proof.Machine
end

