-- ==== Sys2Proof/Laws/Bus.lean ====
section
/-! SUPPORT. The register window: address decoding, and everything a transfer can do (rules R50 to R60). -/

namespace Sys2Proof.Machine

variable {c : Config}

/-! ## Address decoding -/

theorem valid_iff : c.valid = true ↔ (1 ≤ c.nlimbs ∧ c.nlimbs ≤ 128) ∧ c.engineBase % 0x2000 = 0 := by
  simp [Config.valid]

/-- The engine sees the offset alone (rule R53). -/
theorem portAddr_base (hv : c.valid = true) {off : Nat} (h : off < 0x2000) :
    (portAddr (c.engineBase + off)).toNat = off := by
  have := (valid_iff.1 hv).2
  simp only [portAddr, BitVec.toNat_ofNat]
  omega

theorem inWindow_iff {a : Nat} :
    inWindow c a = true ↔ c.engineBase ≤ a ∧ a < c.engineBase + 0x2000 := by
  simp [inWindow]

theorem inWindow_base {off : Nat} (h : off < 0x2000) : inWindow c (c.engineBase + off) = true := by
  rw [inWindow_iff]; omega

theorem extract_low_two (o : BitVec 13) : (o.extractLsb' 0 2 = 0#2) ↔ o.toNat % 4 = 0 := by
  rw [← BitVec.toNat_inj]
  simp [BitVec.extractLsb'_toNat]

/-- A transfer the engine performs is 32 bits wide and aligned (rules R54, R55). -/
theorem transferOk_iff (be : BitVec 4) (o : BitVec 13) :
    transferOk be o = true ↔ be = 0xF#4 ∧ o.toNat % 4 = 0 := by
  simp only [transferOk, Bool.and_eq_true, beq_iff_eq, extract_low_two]

/-- The alignment of the address is that of the offset (rule R53). -/
theorem portAddr_mod_four (a : Nat) : (portAddr a).toNat % 4 = a % 4 := by
  simp only [portAddr, BitVec.toNat_ofNat]
  omega

/-- A limb's offset is its limb's slot, and reserved from NLIMBS on (rule R52). -/
theorem slotAt_limbOffset {k : XName} {i : Nat} (hi : i < 128) {o : BitVec 13} (ho : o.toNat = limbOffset k i) :
    slotAt c o = if i < c.nlimbs then .limb k i else .reserved := by
  have hk := xname_lt k
  have h1 : ¬ o.toNat < 0x1000 := by rw [ho]; unfold limbOffset; omega
  have h2 : o.toNat % 0x200 / 4 = i := by rw [ho]; unfold limbOffset; omega
  have h3 : (o.toNat - 0x1000) / 0x200 = k.toNat := by rw [ho]; unfold limbOffset; omega
  simp only [slotAt, if_neg h1, h2, h3]
  congr 2
  exact BitVec.eq_of_toNat_eq (by simp)

/-- The reserved part of the register page (rule R39). -/
theorem slotAt_reserved_page {o : BitVec 13} (h1 : 0x024 ≤ o.toNat) (h2 : o.toNat < 0x1000) :
    slotAt c o = .reserved := by
  simp only [slotAt, if_pos h2]
  split <;> first | omega | rfl

theorem limbOffset_lt (k : XName) {i : Nat} (hi : i < 128) : limbOffset k i < 0x2000 ∧ limbOffset k i % 4 = 0 := by
  have := xname_lt k
  unfold limbOffset
  omega

/-- A reserved offset lies in the window, is aligned, and is the reserved slot (rules R39, R52). -/
theorem slotAt_reservedOffset {off : Nat} (h : ReservedOffset c off) :
    off < 0x2000 ∧ off % 4 = 0 ∧ ∀ o : BitVec 13, o.toNat = off → slotAt c o = .reserved := by
  rcases h with ⟨h1, h2, h3⟩ | ⟨k, i, hn, hi, rfl⟩
  · exact ⟨by omega, h3, fun o ho => slotAt_reserved_page (by omega) (by omega)⟩
  · have := limbOffset_lt k hi
    exact ⟨this.1, this.2, fun o ho => by rw [slotAt_limbOffset hi ho, if_neg (by omega)]⟩

/-! ## Transfers -/

variable {s : State} {off : Nat}

/-- A 32-bit read at an aligned offset of the window. -/
theorem busStep_read (hv : s.cfg.valid = true) (h : off < 0x2000) (h4 : off % 4 = 0) :
    s.busStep { write := false, addr := s.cfg.engineBase + off, be := 0xF, wdata := 0 } =
      .settled ((s.readSlot (slotAt s.cfg (portAddr (s.cfg.engineBase + off)))).2.respond false
        (some (s.readSlot (slotAt s.cfg (portAddr (s.cfg.engineBase + off)))).1)) := by
  have ht : transferOk (15#4) (portAddr (s.cfg.engineBase + off)) = true := by
    rw [transferOk_iff, portAddr_base hv h]; exact ⟨rfl, h4⟩
  simp [State.busStep, inWindow_base h, State.transfer, ht]

/-- A 32-bit write at an aligned offset of the window while BUSY (rule R60). -/
theorem busStep_write_busy (hv : s.cfg.valid = true) (hb : s.busy = true) (h : off < 0x2000)
    (h4 : off % 4 = 0) (v : Word) :
    s.busStep { write := true, addr := s.cfg.engineBase + off, be := 0xF, wdata := v } =
      .settled ((s.writeBusy v (slotAt s.cfg (portAddr (s.cfg.engineBase + off)))).respond false none) := by
  have ht : transferOk (15#4) (portAddr (s.cfg.engineBase + off)) = true := by
    rw [transferOk_iff, portAddr_base hv h]; exact ⟨rfl, h4⟩
  simp [State.busStep, inWindow_base h, State.transfer, ht, hb]

/-- A 32-bit write at an aligned offset of the window while IDLE (rule R59). -/
theorem busStep_write_idle (hv : s.cfg.valid = true) (hb : s.busy = false) (h : off < 0x2000)
    (h4 : off % 4 = 0) (v : Word) :
    s.busStep { write := true, addr := s.cfg.engineBase + off, be := 0xF, wdata := v } =
      if slotAt s.cfg (portAddr (s.cfg.engineBase + off)) = .cmd then .command v (s.respond false none)
      else .settled ((s.writeIdle v (slotAt s.cfg (portAddr (s.cfg.engineBase + off)))).respond false none) := by
  have ht : transferOk (15#4) (portAddr (s.cfg.engineBase + off)) = true := by
    rw [transferOk_iff, portAddr_base hv h]; exact ⟨rfl, h4⟩
  simp [State.busStep, inWindow_base h, State.transfer, ht, hb]

/-- A read changes nothing but the recorded fault and the model's own counter (rule R58). -/
theorem readSlot_snd (slot : Slot) :
    ∃ f n, (s.readSlot slot).2 = { s with recorded := f, fresh := n } ∧ (s.recorded = f ∨ f = some .unwrittenRead) := by
  cases slot with
  | limb k i =>
    simp only [State.readSlot, State.readLimb]
    by_cases hw : (s.limb k i).written = true <;> by_cases hb : s.busy = true <;> simp only [hw, hb, if_true]
    · exact ⟨s.recorded, _, rfl, .inl rfl⟩
    · exact ⟨s.recorded, s.fresh, rfl, .inl rfl⟩
    · exact ⟨_, _, rfl, .inr rfl⟩
    · exact ⟨_, s.fresh, rfl, .inr rfl⟩
  | id => exact ⟨s.recorded, s.fresh, rfl, .inl rfl⟩
  | cfg => exact ⟨s.recorded, s.fresh, rfl, .inl rfl⟩
  | ctrl => exact ⟨s.recorded, s.fresh, rfl, .inl rfl⟩
  | status => exact ⟨s.recorded, s.fresh, rfl, .inl rfl⟩
  | cmd => exact ⟨s.recorded, s.fresh, rfl, .inl rfl⟩
  | iters => exact ⟨s.recorded, s.fresh, rfl, .inl rfl⟩
  | bits => exact ⟨s.recorded, s.fresh, rfl, .inl rfl⟩
  | pbits => exact ⟨s.recorded, s.fresh, rfl, .inl rfl⟩
  | qbits => exact ⟨s.recorded, s.fresh, rfl, .inl rfl⟩
  | reserved => exact ⟨s.recorded, s.fresh, rfl, .inl rfl⟩

/-- Everything one host access can do (rules R51 to R60): nothing but the response; a read; a write
while BUSY; a write while IDLE; a command word to accept. -/
theorem busStep_cases (a : Access) :
    (∃ resp, s.busStep a = .settled { s with resp := resp }) ∨
    (∃ f n resp, s.busStep a = .settled { s with recorded := f, fresh := n, resp := resp } ∧
      (s.recorded = f ∨ f = some .unwrittenRead)) ∨
    (s.busy = true ∧ a.write = true ∧ inWindow s.cfg a.addr = true ∧
      s.busStep a = .settled ((s.writeBusy a.wdata (slotAt s.cfg (portAddr a.addr))).respond false none)) ∨
    (s.busy = false ∧ a.write = true ∧ inWindow s.cfg a.addr = true ∧
      s.busStep a = .settled ((s.writeIdle a.wdata (slotAt s.cfg (portAddr a.addr))).respond false none)) ∨
    (s.busy = false ∧ a.write = true ∧ inWindow s.cfg a.addr = true ∧
      slotAt s.cfg (portAddr a.addr) = .cmd ∧
      s.busStep a = .command a.wdata (s.respond false none)) := by
  unfold State.busStep
  by_cases hw : inWindow s.cfg a.addr = true
  · simp only [hw, if_true, State.transfer]
    by_cases ht : transferOk a.be (portAddr a.addr) = true
    · simp only [ht, if_true]
      by_cases hwr : a.write = true
      · simp only [hwr, if_true]
        by_cases hb : s.busy = true
        · simp only [hb, if_true]
          exact .inr (.inr (.inl ⟨trivial, trivial, trivial, trivial⟩))
        · have hb' : s.busy = false := (Bool.not_eq_true _).mp hb
          simp only [hb']
          by_cases hc : slotAt s.cfg (portAddr a.addr) = .cmd
          · exact .inr (.inr (.inr (.inr ⟨trivial, trivial, trivial, hc, by simp [hc]⟩)))
          · exact .inr (.inr (.inr (.inl ⟨trivial, trivial, trivial, by simp [hc]⟩)))
      · have hwr' : a.write = false := by simpa using hwr
        simp only [hwr']
        obtain ⟨f, n, he, hf⟩ := readSlot_snd (s := s) (slotAt s.cfg (portAddr a.addr))
        refine .inr (.inl ⟨f, n, some { err := false, rdata := some (s.readSlot
          (slotAt s.cfg (portAddr a.addr))).1 }, ?_, hf⟩)
        simp only [Bool.false_eq_true, if_false]
        rw [he]
        rfl
    · have ht' : transferOk a.be (portAddr a.addr) = false := by simpa using ht
      simp only [ht']
      exact .inl ⟨_, rfl⟩
  · have hw' : inWindow s.cfg a.addr = false := by simpa using hw
    simp only [hw']
    exact .inl ⟨s.resp, rfl⟩

/-- A write while BUSY changes CTRL.IE, DONE and OVR alone, and sets OVR only where it is dropped
(rule R60). -/
theorem writeBusy_eq (v : Word) (slot : Slot) :
    ∃ ie done ovr, s.writeBusy v slot = { s with ie := ie, done := done, ovr := ovr } ∧
      (s.done = false → done = false) ∧ (s.ovr = false → ovr = true → DroppedSlot slot) := by
  cases slot <;> simp only [State.writeBusy]
  case ctrl => exact ⟨v.getLsbD 0, s.done, s.ovr, rfl, id, by simp_all⟩
  case status =>
    exact ⟨s.ie, s.done && !v.getLsbD 1, s.ovr && !v.getLsbD 4, rfl, by simp_all, by simp_all⟩
  case cmd => exact ⟨s.ie, s.done, true, rfl, id, by simp [DroppedSlot]⟩
  case iters => exact ⟨s.ie, s.done, true, rfl, id, by simp [DroppedSlot]⟩
  case bits => exact ⟨s.ie, s.done, true, rfl, id, by simp [DroppedSlot]⟩
  case limb k i => exact ⟨s.ie, s.done, true, rfl, id, by simp [DroppedSlot]⟩
  all_goals exact ⟨s.ie, s.done, s.ovr, rfl, id, by simp_all⟩

/-- A write while IDLE changes CTRL.IE, DONE, OVR, ITERS and BITS, or one limb (rule R59). -/
theorem writeIdle_eq (v : Word) (slot : Slot) :
    (∃ ie done ovr iters bits,
      s.writeIdle v slot = { s with ie := ie, done := done, ovr := ovr, iters := iters, bits := bits } ∧
      (s.done = false → done = false) ∧ (s.ovr = false → ovr = false)) ∨
    ∃ k i, slot = .limb k i ∧ s.writeIdle v slot = s.writeLimb k i v := by
  cases slot <;> simp only [State.writeIdle]
  case limb k i => exact .inr ⟨k, i, rfl, rfl⟩
  case ctrl => exact .inl ⟨v.getLsbD 0, s.done, s.ovr, s.iters, s.bits, rfl, id, id⟩
  case status =>
    exact .inl ⟨s.ie, s.done && !v.getLsbD 1, s.ovr && !v.getLsbD 4, s.iters, s.bits, rfl, by simp_all,
      by simp_all⟩
  case iters => exact .inl ⟨s.ie, s.done, s.ovr, v, s.bits, rfl, id, id⟩
  case bits => exact .inl ⟨s.ie, s.done, s.ovr, s.iters, v, rfl, id, id⟩
  all_goals exact .inl ⟨s.ie, s.done, s.ovr, s.iters, s.bits, rfl, id, id⟩

end Sys2Proof.Machine
end

