-- ==== Sys2Proof/Laws/Engine.lean ====
section
/-! SUPPORT. Everything a merged engine step can do: the run of engine steps up to a request or an end, and
the four cases of `engineRun`. -/

namespace Sys2Proof.Machine

/-- What an engine step, or a run of them, can end in: a point with `G`, a request and a point with `A`, a
result with `R`, an error with `E`. -/
def Tick.Sat {σ ρ : Type} (G : σ → Prop) (A : Draw → σ → Prop) (R : ρ → Prop) (E : ErrCode → Prop) :
    Tick σ ρ → Prop
  | .go w => G w
  | .ask d w => A d w
  | .ret r => R r
  | .err e => E e

section Ticks

variable {σ ρ : Type} {tick : σ → Tick σ ρ}

theorem runTicks_zero (w : σ) : runTicks tick 0 w = .go w := rfl

theorem runTicks_go {w w' : σ} (h : tick w = .go w') (f : Nat) :
    runTicks tick (f + 1) w = runTicks tick f w' := by
  simp [runTicks, h]

theorem runTicks_ask {w w' : σ} {d : Draw} (h : tick w = .ask d w') (f : Nat) :
    runTicks tick (f + 1) w = .ask d w' := by
  simp [runTicks, h]

theorem runTicks_ret {w : σ} {r : ρ} (h : tick w = .ret r) (f : Nat) :
    runTicks tick (f + 1) w = .ret r := by
  simp [runTicks, h]

theorem runTicks_err {w : σ} {e : ErrCode} (h : tick w = .err e) (f : Nat) :
    runTicks tick (f + 1) w = .err e := by
  simp [runTicks, h]

/-- An outcome that is not `go` is the run's outcome, whatever fuel is left. -/
theorem runTicks_stop {w : σ} (h : ∀ w', tick w ≠ .go w') (f : Nat) :
    runTicks tick (f + 1) w = tick w := by
  cases ht : tick w with
  | go w' => exact absurd ht (h w')
  | ask d w' => exact runTicks_ask ht f
  | ret r => exact runTicks_ret ht f
  | err e => exact runTicks_err ht f

/-- If every engine step from a point with `P` goes on to a point with `P`, or ends as `A`, `R` and `E`
say, then so does every run of them. -/
theorem runTicks_sat {P : σ → Prop} {A : Draw → σ → Prop} {R : ρ → Prop} {E : ErrCode → Prop}
    (h : ∀ w, P w → (tick w).Sat P A R E) : ∀ (f : Nat) (w : σ), P w → (runTicks tick f w).Sat P A R E := by
  intro f
  induction f with
  | zero => exact fun w hw => hw
  | succ f ih =>
    intro w hw
    have hs := h w hw
    cases ht : tick w with
    | go w' => rw [runTicks_go ht]; rw [ht] at hs; exact ih w' hs
    | ask d w' => rw [runTicks_ask ht]; rwa [ht] at hs
    | ret r => rw [runTicks_ret ht]; rwa [ht] at hs
    | err e => rw [runTicks_err ht]; rwa [ht] at hs

/-- More fuel changes nothing once a run has stopped. -/
theorem runTicks_more (g : Nat) :
    ∀ (f : Nat) (w : σ), (∀ w', runTicks tick f w ≠ .go w') → runTicks tick (f + g) w = runTicks tick f w := by
  intro f
  induction f with
  | zero => exact fun w h => absurd rfl (h w)
  | succ f ih =>
    intro w h
    rw [Nat.add_right_comm]
    cases ht : tick w with
    | go w' =>
      rw [runTicks_go ht] at h
      rw [runTicks_go ht, runTicks_go ht]
      exact ih w' h
    | ask d w' => rw [runTicks_ask ht, runTicks_ask ht]
    | ret r => rw [runTicks_ret ht, runTicks_ret ht]
    | err e => rw [runTicks_err ht, runTicks_err ht]

end Ticks

section Run

variable {σ ρ : Type} {tick : σ → Tick σ ρ} {resume : σ → Nat → σ} {budget : σ → Nat}
  {put : σ → Running} {write : ρ → State → State} {w : σ} {s : State}

/-- With no request on the port the pseudocode runs on. -/
theorem engineRun_free (hd : s.draw = none) :
    s.engineRun tick resume budget put write w = s.settle put write (runTicks tick (budget w) w) := by
  simp [State.engineRun, hd]

/-- With a request in flight the engine takes no step (rule R41). -/
theorem engineRun_wait {d : Draw} (hd : s.draw = some d) (ha : s.ack = none) :
    s.engineRun tick resume budget put write w = s := by
  simp [State.engineRun, hd, ha]

/-- A lawful answer is taken and the pseudocode runs on (rule R130). -/
theorem engineRun_lawful {d : Draw} {v : Nat} (hd : s.draw = some d) (ha : s.ack = some v)
    (hl : d.lawful v = true) :
    s.engineRun tick resume budget put write w =
      State.settle put write { s with draw := none, ack := none }
        (runTicks tick (budget (resume w v)) (resume w v)) := by
  simp [State.engineRun, hd, ha, hl]

/-- An answer that breaks its law ends the command (rule R130). -/
theorem engineRun_lawless {d : Draw} {v : Nat} (hd : s.draw = some d) (ha : s.ack = some v)
    (hl : d.lawful v = false) :
    s.engineRun tick resume budget put write w = s.raiseError .rngLaw := by
  simp [State.engineRun, hd, ha, hl]

/-- Everything a merged engine step can do. -/
theorem engineRun_cases :
    (s.draw = none ∧
      s.engineRun tick resume budget put write w = s.settle put write (runTicks tick (budget w) w)) ∨
    (∃ d, s.draw = some d ∧ s.ack = none ∧ s.engineRun tick resume budget put write w = s) ∨
    (∃ d v, s.draw = some d ∧ s.ack = some v ∧ d.lawful v = true ∧
      s.engineRun tick resume budget put write w =
        State.settle put write { s with draw := none, ack := none }
          (runTicks tick (budget (resume w v)) (resume w v))) ∨
    (∃ d v, s.draw = some d ∧ s.ack = some v ∧ d.lawful v = false ∧
      s.engineRun tick resume budget put write w = s.raiseError .rngLaw) := by
  cases hd : s.draw with
  | none => exact .inl ⟨rfl, engineRun_free hd⟩
  | some d =>
    cases ha : s.ack with
    | none => exact .inr (.inl ⟨d, rfl, rfl, engineRun_wait hd ha⟩)
    | some v =>
      cases hl : d.lawful v with
      | true => exact .inr (.inr (.inl ⟨d, v, rfl, rfl, hl, engineRun_lawful hd ha hl⟩))
      | false => exact .inr (.inr (.inr ⟨d, v, rfl, rfl, hl, engineRun_lawless hd ha hl⟩))

/-- Everything a merged engine step can end in, when every engine step from a point with `P` ends as `P`,
`A`, `R`, `E` say, a lawful answer keeps `P`, and the results do not touch the port. `a` is the answer left
on the port. -/
theorem engineRun_sat {P : σ → Prop} {A : Draw → σ → Prop} {R : ρ → Prop} {E : ErrCode → Prop}
    (htick : ∀ w, P w → (tick w).Sat P A R E) (hw : P w)
    (hres : ∀ d v, s.draw = some d → d.lawful v = true → P (resume w v))
    (hwrite : ∀ r d a, write r { s with draw := d, ack := a } = { write r s with draw := d, ack := a }) :
    let t := s.engineRun tick resume budget put write w
    (t = s ∧ s.draw ≠ none ∧ s.ack = none) ∨
    (∃ w' a, P w' ∧ (a = none ∨ s.draw = none ∧ a = s.ack) ∧ t = { s with phase := .busy (put w'), draw := none, ack := a }) ∨
    (∃ d w' a, A d w' ∧ (a = none ∨ s.draw = none ∧ a = s.ack) ∧
      t = { s with phase := .busy (put w'), draw := some d, ack := a }) ∨
    (∃ r, R r ∧ t = (write r s).complete) ∨
    (∃ e, E e ∧ t = s.raiseError e) ∨
    (t = s.raiseError .rngLaw ∧ ∃ d v, s.draw = some d ∧ s.ack = some v ∧ d.lawful v = false) := by
  simp only
  rcases engineRun_cases (tick := tick) (resume := resume) (budget := budget) (put := put) (write := write)
    (w := w) (s := s) with ⟨hd, ht⟩ | ⟨d, hd, ha, ht⟩ | ⟨d, v, hd, ha, hl, ht⟩ | ⟨d, v, hd, ha, hl, ht⟩
  · have hs := runTicks_sat htick (budget w) w hw
    rw [ht]
    cases hr : runTicks tick (budget w) w with
    | go w' =>
      rw [hr] at hs
      exact .inr (.inl ⟨w', s.ack, hs, .inr ⟨hd, rfl⟩, by rw [← hd]; rfl⟩)
    | ask d w' => rw [hr] at hs; exact .inr (.inr (.inl ⟨d, w', s.ack, hs, .inr ⟨hd, rfl⟩, rfl⟩))
    | ret r => rw [hr] at hs; exact .inr (.inr (.inr (.inl ⟨r, hs, rfl⟩)))
    | err e => rw [hr] at hs; exact .inr (.inr (.inr (.inr (.inl ⟨e, hs, rfl⟩))))
  · exact .inl ⟨ht, by simp [hd], ha⟩
  · have hs := runTicks_sat htick (budget (resume w v)) (resume w v) (hres d v hd hl)
    rw [ht]
    cases hr : runTicks tick (budget (resume w v)) (resume w v) with
    | go w' => rw [hr] at hs; exact .inr (.inl ⟨w', none, hs, .inl rfl, rfl⟩)
    | ask d w' => rw [hr] at hs; exact .inr (.inr (.inl ⟨d, w', none, hs, .inl rfl, rfl⟩))
    | ret r =>
      rw [hr] at hs
      refine .inr (.inr (.inr (.inl ⟨r, hs, ?_⟩)))
      rw [State.settle, hwrite]
      rfl
    | err e => rw [hr] at hs; exact .inr (.inr (.inr (.inr (.inl ⟨e, hs, rfl⟩))))
  · exact .inr (.inr (.inr (.inr (.inr ⟨ht, d, v, hd, ha, hl⟩))))

end Run

end Sys2Proof.Machine
end

