-- ==== Sys2Proof/Laws/Modexp.lean ====
section
/-! SUPPORT. What the loop of rule R90 computes, for POWMOD and for the witness power of rule R114. -/

namespace Sys2Proof.Machine

/-- The loop's invariant holds before its first iteration (rule R98). -/
theorem powStart_ok (b e m : Nat) : (powStart b e).Ok b e m := by
  refine ⟨by simp [powStart], le_rfl, fun h => ?_⟩
  have : e = 0 := h
  simp [powStart, powmodLaw, this]

/-- An iteration keeps the loop's invariant (rule R98). -/
theorem powIter_ok {b e m : Nat} {l : PowLoop} (h : l.Ok b e m) (he : l.e ≠ 0) : (powIter m l).Ok b e m := by
  obtain ⟨hc, hle, _⟩ := h
  have hsq : ∀ k, (l.p * l.p % m) ^ k ≡ l.p ^ (2 * k) [MOD m] := fun k => by
    have := (Nat.mod_modEq (l.p * l.p) m).pow k
    rwa [← pow_two, ← pow_mul, pow_two] at this
  have hpar : l.e = 2 * (l.e / 2) + l.e % 2 := (Nat.div_add_mod l.e 2).symm
  have hcong : (powIter m l).v * (powIter m l).p ^ (powIter m l).e % m = b ^ e % m := by
    rw [← hc]
    show _ ≡ _ [MOD m]
    by_cases hodd : l.e % 2 = 1
    · have h1 : l.e = 2 * (l.e / 2) + 1 := by omega
      simp only [powIter, if_pos hodd]
      calc l.v * l.p % m * (l.p * l.p % m) ^ (l.e / 2)
          ≡ l.v * l.p * l.p ^ (2 * (l.e / 2)) [MOD m] := (Nat.mod_modEq _ _).mul (hsq _)
        _ = l.v * l.p ^ (2 * (l.e / 2) + 1) := by rw [pow_succ]; ring
        _ = l.v * l.p ^ l.e := by rw [← h1]
    · have h1 : l.e = 2 * (l.e / 2) := by omega
      simp only [powIter, if_neg hodd]
      calc l.v * (l.p * l.p % m) ^ (l.e / 2)
          ≡ l.v * l.p ^ (2 * (l.e / 2)) [MOD m] := Nat.ModEq.rfl.mul (hsq _)
        _ = l.v * l.p ^ l.e := by rw [← h1]
  refine ⟨hcong, by simp only [powIter]; omega, fun h0 => ?_⟩
  have h1 : l.e = 1 := by simp only [powIter] at h0; omega
  have hv : (powIter m l).v = l.v * l.p % m := by simp [powIter, h1]
  have he' : e ≠ 0 := by omega
  rw [h0, pow_zero, mul_one, hv, Nat.mod_mod] at hcong
  rw [hv, hcong, powmodLaw, if_neg he']

/-- A run through the power loop: the loop, embedded by `g` in a command's working state, runs down to
exponent 0 in as many engine steps as the exponent has bits (rule R91), and its result is the law's. -/
theorem runTicks_power {σ ρ : Type} {tick : σ → Tick σ ρ} {g : PowLoop → σ} {b e m : Nat}
    (hgo : ∀ l : PowLoop, l.e ≠ 0 → tick (g l) = .go (g (powIter m l))) (f : Nat) :
    ∀ (n : Nat) (l : PowLoop), l.e ≤ n → l.Ok b e m →
      ∃ l' : PowLoop, l'.e = 0 ∧ l'.v = powmodLaw b e m ∧
        runTicks tick (bitLength l.e + f) (g l) = runTicks tick f (g l') := by
  intro n
  induction n with
  | zero =>
    intro l hl hok
    have h0 : l.e = 0 := by omega
    exact ⟨l, h0, hok.2.2 h0, by simp [h0, bitLength]⟩
  | succ n ih =>
    intro l hl hok
    by_cases h0 : l.e = 0
    · exact ⟨l, h0, hok.2.2 h0, by simp [h0, bitLength]⟩
    · obtain ⟨l', he', hv', hrun⟩ := ih (powIter m l) (by simp only [powIter]; omega) (powIter_ok hok h0)
      refine ⟨l', he', hv', ?_⟩
      rw [← bitLength_half h0, Nat.add_right_comm, runTicks_go (hgo l h0)]
      exact hrun

/-- POWMOD from its check on, for M >= 1, computes the law (rules R90, R93, R98) and makes no request. -/
theorem powmod_run (w : PowWork) (hl : w.loop = none) (hm : w.m ≠ 0) :
    runTicks powmodTick (powmodBudget w) w = .ret (powmodLaw w.b w.e w.m) := by
  have hstart : powmodTick w = .go { w with loop := some (powStart w.b w.e) } := by
    simp [powmodTick, hl, hm]
  have hgo : ∀ l : PowLoop, l.e ≠ 0 → powmodTick { w with loop := some l } =
      .go { w with loop := some (powIter w.m l) } := fun l h => by simp [powmodTick, h]
  obtain ⟨l', he', hv', hrun⟩ := runTicks_power (g := fun l => { w with loop := some l }) hgo 1 w.e
    (powStart w.b w.e) le_rfl (powStart_ok w.b w.e w.m)
  have hb : powmodBudget w = bitLength (powStart w.b w.e).e + 1 + 1 := by
    simp only [powmodBudget, hl, powStart]; omega
  rw [hb, runTicks_go hstart, hrun, ← hv']
  exact runTicks_ret (by simp [powmodTick, he']) 0

/-- POWMOD with M = 0 (rule R92). -/
theorem powmod_run_zero (w : PowWork) (hl : w.loop = none) (hm : w.m = 0) :
    runTicks powmodTick (powmodBudget w) w = .err .divzero := by
  have : powmodBudget w = bitLength w.e + 1 + 1 := by simp only [powmodBudget, hl]; omega
  rw [this]
  exact runTicks_err (by simp [powmodTick, hl, hm]) _

/-- The invariant of a running POWMOD with a given snapshot (rules R92, R98). -/
def PowWork.Ok (b e m : Nat) (w : PowWork) : Prop :=
  w.b = b ∧ w.e = e ∧ w.m = m ∧ ∀ l, w.loop = some l → m ≠ 0 ∧ l.Ok b e m

/-- One engine step of POWMOD keeps its invariant, makes no request, and ends only with the law's value
or with DIVZERO (rules R90, R92, R99). -/
theorem powmodTick_sat {b e m : Nat} (w : PowWork) (h : w.Ok b e m) :
    (powmodTick w).Sat (PowWork.Ok b e m) (fun _ _ => False) (fun v => m ≠ 0 ∧ v = powmodLaw b e m)
      (fun c => m = 0 ∧ c = .divzero) := by
  obtain ⟨rfl, rfl, rfl, hok⟩ := h
  unfold powmodTick
  cases hl : w.loop with
  | none =>
    by_cases hm : w.m = 0
    · simp [hm, Tick.Sat]
    · simp [hm, Tick.Sat, PowWork.Ok, powStart_ok]
  | some l =>
    obtain ⟨hm, hl'⟩ := hok l hl
    by_cases h0 : l.e = 0
    · simp [h0, Tick.Sat, hm, hl'.2.2 h0]
    · simp [h0, Tick.Sat, PowWork.Ok, hm, powIter_ok hl' h0]

end Sys2Proof.Machine
end

