-- ==== Sys2Proof/Laws/Primality.lean ====
section
/-! SUPPORT. What the procedure mr of rule R110 does between one request and the next, and what its results
say about N (rules R111 to R126). -/

namespace Sys2Proof.Machine

variable {c : Config}

/-! ## The early outcomes (rule R111) -/

theorem mrTick_lt_two {w : MrWork} (hp : w.pt = .start) (h : w.n < 2) : mrTick c w = .ret false := by
  simp [mrTick, hp, mrEarly, h]

theorem mrTick_two {w : MrWork} (hp : w.pt = .start) (h : w.n = 2) : mrTick c w = .ret true := by
  simp [mrTick, hp, mrEarly, h]

theorem mrTick_even {w : MrWork} (hp : w.pt = .start) (h : w.n % 2 = 0) (h2 : w.n ≠ 2) :
    mrTick c w = .ret false := by
  simp [mrTick, hp, mrEarly, h, h2]

/-- The early outcomes take one engine step and make no request (rule R111). -/
theorem mr_run_early {w : MrWork} (hp : w.pt = .start) (h : w.n < 3 ∨ w.n % 2 = 0) :
    runTicks (mrTick c) (mrBudget w) w = .ret (decide (w.n = 2)) := by
  have hb : mrBudget w = (bitLength w.n + bitLength w.r + w.s + 5) + 1 := rfl
  rw [hb]
  apply runTicks_ret
  by_cases h2 : w.n = 2
  · rw [mrTick_two hp h2]; simp [h2]
  · simp only [h2, decide_false]
    rcases h with h | h
    · exact mrTick_lt_two hp (by omega)
    · exact mrTick_even hp h h2

/-! ## The decomposition (rule R112) -/

/-- The halving loop ends at the head of round 1 with N-1 = 2^s * r, r odd. -/
theorem mr_run_halve :
    ∀ (b : Nat) (w : MrWork), w.pt = .halve → w.r ≠ 0 → bitLength w.r ≤ b →
      ∃ s r, 2 ^ s * r = 2 ^ w.s * w.r ∧ r % 2 = 1 ∧ w.s ≤ s ∧
        ∀ f, runTicks (mrTick c) (s - w.s + 1 + f) w =
          runTicks (mrTick c) f { w with s := s, r := r, round := 1, pt := .round } := by
  intro b
  induction b with
  | zero =>
    intro w _ hr hb
    have := bitLength_pos hr
    omega
  | succ b ih =>
    intro w hp hr hb
    by_cases he : w.r % 2 = 0
    · have hgo : mrTick c w = .go { w with r := w.r / 2, s := w.s + 1 } := by simp [mrTick, hp, mrHalve, he]
      have hr2 : w.r / 2 ≠ 0 := by omega
      have hb2 : bitLength (w.r / 2) ≤ b := by have := bitLength_half hr; omega
      obtain ⟨s, r, heq, hodd, hle, hrun⟩ := ih { w with r := w.r / 2, s := w.s + 1 } hp hr2 hb2
      simp only at heq hle hrun
      refine ⟨s, r, ?_, hodd, by omega, fun f => ?_⟩
      · rw [heq, pow_succ, mul_assoc]
        congr 1
        omega
      · have hf : s - w.s + 1 + f = s - (w.s + 1) + 1 + f + 1 := by omega
        rw [hf, runTicks_go hgo, hrun]
    · have hgo : mrTick c w = .go { w with round := 1, pt := .round } := by simp [mrTick, hp, mrHalve, he]
      refine ⟨w.s, w.r, rfl, by omega, le_rfl, fun f => ?_⟩
      have hf : w.s - w.s + 1 + f = f + 1 := by omega
      rw [hf, runTicks_go hgo]

/-- The head of a round is never passed without a request (rules R113, R118 to R120). -/
theorem mrTick_round {w : MrWork} (hp : w.pt = .round) : mrTick c w = mrRound c w := by
  simp [mrTick, hp]

theorem mrRound_stops (w w' : MrWork) : mrRound c w ≠ .go w' := by
  unfold mrRound
  split
  · simp
  · split <;> simp

/-- With fuel left, a run at the head of a round does what the head of the round does. -/
theorem runTicks_round {w : MrWork} (hp : w.pt = .round) (f : Nat) :
    runTicks (mrTick c) (f + 1) w = mrRound c w := by
  rw [runTicks_stop (by rw [mrTick_round hp]; exact mrRound_stops w), mrTick_round hp]

/-- From its start on an odd N >= 3, mr decomposes N-1 and comes to the head of round 1 (rules R111 to
R113). -/
theorem mr_run_start {w : MrWork} (hp : w.pt = .start) (h3 : 3 ≤ w.n) (hodd : w.n % 2 = 1) :
    ∃ s r, MrWork.Decomposed { w with s := s, r := r, round := 1, pt := .round } ∧
      runTicks (mrTick c) (mrBudget w) w =
        mrRound c { w with s := s, r := r, round := 1, pt := .round } := by
  have hgo : mrTick c w = .go { w with r := w.n - 1, s := 0, pt := .halve } := by
    simp [mrTick, hp, mrEarly, show ¬ w.n < 2 by omega, show w.n ≠ 2 by omega, show w.n % 2 ≠ 0 by omega]
  have hr : w.n - 1 ≠ 0 := by omega
  obtain ⟨s, r, heq, hro, _, hrun⟩ := mr_run_halve (c := c) (bitLength (w.n - 1))
    { w with r := w.n - 1, s := 0, pt := .halve } rfl hr le_rfl
  simp only [pow_zero, one_mul, Nat.sub_zero] at heq hrun
  have hr0 : r ≠ 0 := by omega
  have hs1 : 1 ≤ s := by
    by_contra h
    have : s = 0 := by omega
    rw [this, pow_zero, one_mul] at heq
    omega
  have hsb : s < bitLength w.n := (exponent_lt_bitLength hr0 heq).trans_le (bitLength_mono (by omega))
  refine ⟨s, r, ⟨h3, hodd, heq, hro, hs1⟩, ?_⟩
  have hb : mrBudget w = s + 1 + (mrBudget w - (s + 3) + 1) + 1 := by
    have : bitLength w.n + 6 ≤ mrBudget w := by unfold mrBudget; omega
    omega
  rw [hb, runTicks_go hgo, hrun]
  exact runTicks_round rfl _

/-! ## A round (rules R114 to R116) -/

/-- The squaring loop and the test after it, with `left` squarings to go. -/
theorem mr_run_squares (w : MrWork) (f : Nat) :
    ∀ (left y j : Nat), w.s - j = left →
      runTicks (mrTick c) (left + 2 + f) { w with pt := .square y j } =
        if squaresPass c.mrEarlyExit w.n left y then mrRound c (mrNextRound w) else .ret false := by
  have hround : ∀ g, runTicks (mrTick c) (g + 1) (mrNextRound w) = mrRound c (mrNextRound w) :=
    fun g => runTicks_round rfl g
  have hexit : ∀ y j left, ¬(j < w.s ∧ ¬(c.mrEarlyExit = true ∧ y = w.n - 1)) →
      runTicks (mrTick c) (left + 2 + f) { w with pt := .square y j } =
        if y = w.n - 1 then mrRound c (mrNextRound w) else .ret false := by
    intro y j left hx
    have h2 : left + 2 + f = left + f + 1 + 1 := by omega
    by_cases hy : y = w.n - 1
    · have hgo : mrTick c { w with pt := .square y j } = .go (mrNextRound w) := by
        simp only [mrTick, mrSquare, if_neg hx]
        simp [hy, mrNextRound]
      rw [h2, runTicks_go hgo, hround, if_pos hy]
    · have hret : mrTick c { w with pt := .square y j } = .ret false := by
        simp only [mrTick, mrSquare, if_neg hx]
        simp [hy]
      rw [h2, runTicks_ret hret, if_neg hy]
  intro left
  induction left with
  | zero =>
    intro y j hj
    rw [hexit y j 0 (fun h => by omega)]
    simp [squaresPass]
  | succ left ih =>
    intro y j hj
    by_cases hx : c.mrEarlyExit = true ∧ y = w.n - 1
    · rw [hexit y j _ (fun h => h.2 hx), if_pos hx.2]
      rw [squaresPass, if_pos hx]
      simp
    · have hjs : j < w.s ∧ ¬(c.mrEarlyExit = true ∧ y = w.n - 1) := ⟨by omega, hx⟩
      have h2 : left + 1 + 2 + f = left + 2 + f + 1 := by omega
      by_cases h1 : y * y % w.n = 1
      · have hret : mrTick c { w with pt := .square y j } = .ret false := by
          simp only [mrTick, mrSquare, if_pos hjs, if_pos h1]
        rw [h2, runTicks_ret hret]
        simp [squaresPass, hx, h1]
      · have hgo : mrTick c { w with pt := .square y j } =
            .go { w with pt := .square (y * y % w.n) (j + 1) } := by
          simp only [mrTick, mrSquare, if_pos hjs, if_neg h1]
        rw [h2, runTicks_go hgo, ih _ _ (by omega)]
        simp [squaresPass, hx, h1]

/-- A round with witness a, from the start of its power on (rules R114 to R116): it leads to the head of
the next round, or to the result 0. -/
theorem mr_run_round (w : MrWork) (a : Nat) :
    runTicks (mrTick c) (mrBudget { w with pt := .power (powStart a w.r) })
        { w with pt := .power (powStart a w.r) } =
      if roundPasses c.mrEarlyExit w.n w.s w.r a then mrRound c (mrNextRound w) else .ret false := by
  have hgo : ∀ l : PowLoop, l.e ≠ 0 → mrTick c { w with pt := .power l } =
      .go { w with pt := .power (powIter w.n l) } := fun l h => by simp [mrTick, mrPower, h]
  obtain ⟨l', he', hv', hrun⟩ := runTicks_power (g := fun l => { w with pt := .power l }) hgo
    (bitLength w.n + w.s + 6) w.r (powStart a w.r) le_rfl (powStart_ok a w.r w.n)
  have hb : mrBudget { w with pt := .power (powStart a w.r) } =
      bitLength (powStart a w.r).e + (bitLength w.n + w.s + 6) := by
    simp only [mrBudget, powStart]; omega
  rw [hb, hrun]
  have htick : mrTick c { w with pt := .power l' } = mrTest { w with pt := .power l' } (powmodLaw a w.r w.n) := by
    simp [mrTick, mrPower, he', hv']
  by_cases hy : powmodLaw a w.r w.n = 1 ∨ powmodLaw a w.r w.n = w.n - 1
  · have hpass : roundPasses c.mrEarlyExit w.n w.s w.r a = true := by
      rcases hy with h | h <;> simp [roundPasses, h]
    have ht : mrTick c { w with pt := .power l' } = .go (mrNextRound w) := by
      rw [htick]; simp [mrTest, hy, mrNextRound]
    have hf : bitLength w.n + w.s + 6 = bitLength w.n + w.s + 4 + 1 + 1 := by omega
    rw [hf, runTicks_go ht, hpass, if_pos rfl]
    exact runTicks_round rfl _
  · have ht : mrTick c { w with pt := .power l' } =
        .go { w with pt := .square (powmodLaw a w.r w.n) 1 } := by
      rw [htick]; simp [mrTest, hy]
    have hpass : roundPasses c.mrEarlyExit w.n w.s w.r a =
        squaresPass c.mrEarlyExit w.n (w.s - 1) (powmodLaw a w.r w.n) := by
      have h1 := not_or.1 hy
      simp [roundPasses, h1.1, h1.2]
    have hf : bitLength w.n + w.s + 6 = (w.s - 1) + 2 + (bitLength w.n + w.s + 3 - (w.s - 1)) + 1 := by omega
    rw [hf, runTicks_go ht, mr_run_squares w _ (w.s - 1) _ 1 rfl, hpass]

/-- What the head of the next round does, inside the K rounds and with a bound above 0 (rules R118,
R119). -/
theorem mrRound_next {w : MrWork} (hk : w.round ≤ w.k) (hb : 0 < witnessBound c w.n) :
    mrRound c (mrNextRound w) = mrAfterPass c w := by
  have hb' : ¬ witnessBound c w.n ≤ 0 := by omega
  by_cases h : w.round = w.k
  · simp [mrRound, mrAfterPass, mrNextRound, h]
  · have : ¬ w.k < w.round + 1 := by omega
    simp [mrRound, mrAfterPass, mrNextRound, h, hb', this]

/-- A round from its answer v on (rules R113 to R119). -/
theorem mr_run_answer {w : MrWork} (hp : w.pt = .round) (v : Nat) (hk : w.round ≤ w.k)
    (hb : 0 < witnessBound c w.n) :
    runTicks (mrTick c) (mrBudget (mrResume w v)) (mrResume w v) =
      if roundPasses c.mrEarlyExit w.n w.s w.r (v + 2) then mrAfterPass c w else .ret false := by
  have : mrResume w v = { w with pt := .power (powStart (v + 2) w.r) } := by simp [mrResume, hp]
  rw [this, mr_run_round, mrRound_next hk hb]

/-! ## What a result says about N (rules R124, R126) -/

/-- A prime has no square root of 1 other than 1 and N-1. -/
theorem prime_sqrt_one {n y : Nat} (hn : n.Prime) (hy : y < n) (h : y * y % n = 1) : y = 1 ∨ y = n - 1 := by
  have hmod : y * y ≡ 1 [MOD n] := by
    rw [Nat.ModEq, h, Nat.mod_eq_of_lt hn.one_lt]
  have hy0 : 1 ≤ y := by
    by_contra h0
    have : y = 0 := by omega
    simp [this] at h
  have hdvd : n ∣ (y - 1) * (y + 1) := by
    have := (Nat.modEq_iff_dvd' (by nlinarith)).1 hmod.symm
    have he : y * y - 1 = (y - 1) * (y + 1) := by
      obtain ⟨z, rfl⟩ := Nat.exists_eq_add_of_le hy0
      have : (1 + z) * (1 + z) = z * (1 + z + 1) + 1 := by ring
      rw [this]; simp
    rwa [he] at this
  rcases hn.dvd_mul.1 hdvd with h | h
  · left
    have := Nat.eq_zero_of_dvd_of_lt h (by omega)
    omega
  · right
    have := Nat.le_of_dvd (by omega) h
    omega

/-- Fermat's little theorem for a witness (rule R126). -/
theorem prime_witness_pow {n a : Nat} (hn : n.Prime) (h2 : 2 ≤ a) (ha : a ≤ n - 2) : a ^ (n - 1) % n = 1 := by
  have htwo := hn.two_le
  have : Fact n.Prime := ⟨hn⟩
  have ha0 : (a : ZMod n) ≠ 0 := by
    intro h0
    rw [ZMod.natCast_eq_zero_iff] at h0
    have := Nat.le_of_dvd (by omega) h0
    omega
  have hp := ZMod.pow_card_sub_one_eq_one ha0
  have : ((a ^ (n - 1) : Nat) : ZMod n) = ((1 : Nat) : ZMod n) := by push_cast; exact hp
  rw [ZMod.natCast_eq_natCast_iff] at this
  rw [Nat.ModEq] at this
  rw [this, Nat.mod_eq_of_lt hn.one_lt]

/-- The power that stands before the last squaring of a prime's round is a square root of 1. -/
theorem prime_last_power {n a s r : Nat} (hn : n.Prime) (h2 : 2 ≤ a) (ha : a ≤ n - 2) (hs : 1 ≤ s)
    (hd : 2 ^ s * r = n - 1) :
    a ^ (2 ^ (s - 1) * r) % n = 1 ∨ a ^ (2 ^ (s - 1) * r) % n = n - 1 := by
  apply prime_sqrt_one hn (Nat.mod_lt _ hn.pos)
  rw [← Nat.mul_mod, ← pow_add]
  have : 2 ^ (s - 1) * r + 2 ^ (s - 1) * r = n - 1 := by
    rw [← hd, ← two_mul, ← mul_assoc, ← pow_succ']
    congr 2
    omega
  rw [this]
  exact prime_witness_pow hn h2 ha

/-! ## Everything an engine step of mr can do -/

/-- mr at work on a given candidate with a given round count. -/
def MrWork.OkFor (c : Config) (n k : Nat) (w : MrWork) : Prop := w.Ok c ∧ w.n = n ∧ w.k = k

/-- What a result of mr says (rules R111, R121, R124): 1 is given for 2 and for odd numbers only, and at
MR_EARLY_EXIT = 1 a result of 0 is never given for a prime. -/
def MrResult (c : Config) (n : Nat) (b : Bool) : Prop :=
  if b then n = 2 ∨ (3 ≤ n ∧ n % 2 = 1) else c.mrEarlyExit = true → ¬ n.Prime

theorem witnessBound_toNat_lt {n : Nat} (c : Config) (h : 0 < witnessBound c n) :
    1 ≤ (witnessBound c n).toNat ∧ (witnessBound c n).toNat + 3 ≤ n := by
  have hv : 3 ≤ c.mrBoundOffset.value := by cases c.mrBoundOffset <;> simp [BoundOffset.value]
  unfold witnessBound at *
  omega

/-- Everything one engine step of mr can do (rules R110 to R121). -/
theorem mrTick_sat {n k : Nat} (w : MrWork) (h : w.OkFor c n k) :
    (mrTick c w).Sat (MrWork.OkFor c n k)
      (fun d w' => w'.OkFor c n k ∧ w'.DrawOk c (some d) ∧ d.legal c = true)
      (MrResult c n) (fun e => e = .rngBound ∧ 1 ≤ k ∧ n = 3) := by
  obtain ⟨⟨hn, hk, hpt⟩, rfl, rfl⟩ := h
  have hEven : w.n % 2 = 0 → w.n ≠ 2 → ¬ w.n.Prime := fun h0 h2 hp => by
    rcases hp.eq_two_or_odd with h | h <;> omega
  unfold mrTick
  cases hp : w.pt with
  | start =>
    rw [hp] at hpt
    simp only [mrEarly]
    split
    · next h2 =>
      simp only [Tick.Sat, MrResult]
      intro _ hp
      have := hp.two_le
      omega
    · split
      · simp [Tick.Sat, MrResult, *]
      · split
        · next h2 h0 => simpa [Tick.Sat, MrResult] using fun _ => hEven h0 h2
        · refine ⟨⟨hn, hk, ?_⟩, rfl, rfl⟩
          simp only [pow_zero, one_mul, and_true]
          omega
  | halve =>
    rw [hp] at hpt
    obtain ⟨h3, hodd, heq⟩ := hpt
    simp only [mrHalve]
    split
    · next he =>
      refine ⟨⟨hn, hk, ?_⟩, rfl, rfl⟩
      simp only [hp]
      refine ⟨h3, hodd, ?_⟩
      rw [← heq, pow_succ, mul_assoc]
      congr 1
      omega
    · next he =>
      refine ⟨⟨hn, hk, ?_⟩, rfl, rfl⟩
      have hs : 1 ≤ w.s := by
        by_contra h
        have h0 : w.s = 0 := by omega
        rw [h0, pow_zero, one_mul] at heq
        omega
      exact ⟨⟨h3, hodd, heq, by simp only; omega, hs⟩, le_rfl, by simp⟩
  | round =>
    rw [hp] at hpt
    obtain ⟨hd, h1, hle⟩ := hpt
    simp only [mrRound]
    split
    · exact .inr ⟨hd.1, hd.2.1⟩
    · next hr =>
      split
      · next hb =>
        refine ⟨rfl, by omega, ?_⟩
        have h3 := hd.1
        have hodd := hd.2.1
        have : c.mrBoundOffset.value ≤ 4 := by cases c.mrBoundOffset <;> simp [BoundOffset.value]
        unfold witnessBound at hb
        omega
      · next hb =>
        have hb' : 0 < witnessBound c w.n := by omega
        have := witnessBound_toNat_lt c hb'
        refine ⟨⟨⟨hn, hk, ?_⟩, rfl, rfl⟩, .inr ⟨hp, by omega, hb', rfl⟩, ?_⟩
        · rw [hp]; exact ⟨hd, h1, hle⟩
        · simp only [Draw.legal, Bool.and_eq_true, decide_eq_true_eq]
          omega
  | power l =>
    rw [hp] at hpt
    obtain ⟨hin, a, h2, ha, hok⟩ := hpt
    have hn5 := hin.2.1
    simp only [mrPower]
    split
    · next he =>
      have hr : w.r ≠ 0 := by have := hin.1.2.2.2.1; omega
      have hv : l.v = a ^ w.r % w.n := by rw [hok.2.2 he, powmodLaw, if_neg hr]
      simp only [mrTest]
      split
      · refine ⟨⟨hn, hk, hin.1, ?_, ?_⟩, rfl, rfl⟩
        · simp [mrNextRound]
        · have := hin.2.2.2
          simp only [mrNextRound]
          omega
      · next hy =>
        refine ⟨⟨hn, hk, hin, le_rfl, hin.1.2.2.2.2, fun h => hy (.inl h), a, h2, ha, ?_⟩, rfl, rfl⟩
        simp [hv]
    · next he => exact ⟨⟨hn, hk, hin, a, h2, ha, powIter_ok hok he⟩, rfl, rfl⟩
  | square y j =>
    rw [hp] at hpt
    obtain ⟨hin, hj1, hjs, hy1, a, h2, ha, hy⟩ := hpt
    have hn5 := hin.2.1
    have hyn : y < w.n := by rw [hy]; exact Nat.mod_lt _ (by omega)
    simp only [mrSquare]
    split
    · next hx =>
      split
      · next hsq =>
        simp only [Tick.Sat, MrResult]
        intro hearly hprime
        rcases prime_sqrt_one hprime hyn hsq with h | h
        · exact hy1 h
        · exact hx.2 ⟨hearly, h⟩
      · next hsq =>
        refine ⟨⟨hn, hk, hin, by omega, hx.1, hsq, a, h2, ha, ?_⟩, rfl, rfl⟩
        rw [hy, ← Nat.mul_mod, ← pow_add]
        congr 2
        have : j + 1 - 1 = (j - 1) + 1 := by omega
        rw [this, pow_succ]
        ring
    · next hx =>
      split
      · next hne =>
        simp only [Tick.Sat, MrResult]
        intro hearly hprime
        have hjeq : j = w.s := by
          by_contra h
          exact hx ⟨by omega, fun h' => hne h'.2⟩
        rcases prime_last_power hprime h2 ha hin.1.2.2.2.2 hin.1.2.2.1 with h | h
        · exact hy1 (by rw [hy, hjeq]; exact h)
        · exact hne (by rw [hy, hjeq]; exact h)
      · refine ⟨⟨hn, hk, hin.1, ?_, ?_⟩, rfl, rfl⟩
        · simp [mrNextRound]
        · have := hin.2.2.2
          simp only [mrNextRound]
          omega

/-- A lawful answer leaves mr in a good state: the witness a = v + 2 lies in [2, N-2] (rule R119). -/
theorem mrResume_ok {n k v : Nat} {d : Draw} {w : MrWork} (h : w.OkFor c n k) (hd : w.DrawOk c (some d))
    (hl : d.lawful v = true) : (mrResume w v).OkFor c n k := by
  obtain ⟨⟨hn, hk, hpt⟩, rfl, rfl⟩ := h
  rcases hd with hd | ⟨hp, hr, hb, hd⟩
  · simp at hd
  · rw [hp] at hpt
    obtain ⟨hdec, h1, _⟩ := hpt
    have hd' : d = .below (witnessBound c w.n).toNat := by simpa using hd
    rw [hd'] at hl
    have hv : v < (witnessBound c w.n).toNat := by simpa [Draw.lawful] using hl
    have hb' := witnessBound_toNat_lt c hb
    have h5 : 5 ≤ w.n := by have := hdec.2.1; omega
    have : mrResume w v = { w with pt := .power (powStart (v + 2) w.r) } := by simp [mrResume, hp]
    rw [this]
    exact ⟨⟨hn, hk, ⟨hdec, h5, h1, hr⟩, v + 2, by omega, by simp only; omega, powStart_ok _ _ _⟩, rfl, rfl⟩

/-- mr at its start is in a good state. -/
theorem mrStart_ok {n k : Nat} (hn : n < 2 ^ c.width) (hk : k < 2 ^ 32) : (mrStart n k).OkFor c n k :=
  ⟨⟨hn, hk, trivial⟩, rfl, rfl⟩

end Sys2Proof.Machine
end

