-- ==== Sys2Proof/Laws/Primegen.lean ====
section
/-! SUPPORT. What SPLIT and PRIMEGEN do between one request and the next (rules R135 to R153). -/

namespace Sys2Proof.Machine

variable {c : Config}

/-! ## SPLIT -/

/-- The split's results are exact (rule R137). -/
theorem split_exact {nbits rr : Nat} (h : rr < nbits / 2) :
    splitP nbits rr = rr + nbits / 4 ∧ splitQ nbits rr + splitP nbits rr = nbits - nbits % 4 := by
  have h4 : nbits / 2 / 2 = nbits / 4 := by omega
  constructor
  · simp [splitP, h4]
  · unfold splitQ splitP
    omega

/-- SPLIT at work with a given snapshot. -/
def SplitWork.OkFor (nbits : Nat) (w : SplitWork) : Prop :=
  w.nbits = nbits ∧ ∀ rr, w.rr = some rr → rr < nbits / 2

/-- Everything one engine step of SPLIT can do (rules R135 to R137). -/
theorem splitTick_sat {nbits : Nat} (w : SplitWork) (h : w.OkFor nbits) :
    (splitTick w).Sat (SplitWork.OkFor nbits)
      (fun d w' => w'.OkFor nbits ∧ w'.rr = none ∧ 1 ≤ nbits / 2 ∧ d = .below (nbits / 2))
      (fun r => ∃ rr, rr < nbits / 2 ∧ r = (splitP nbits rr, splitQ nbits rr))
      (fun e => e = .rngBound ∧ nbits < 2) := by
  obtain ⟨rfl, hrr⟩ := h
  unfold splitTick
  cases hw : w.rr with
  | none =>
    by_cases h0 : w.nbits / 2 = 0
    · simp only [if_pos h0]
      exact ⟨rfl, by omega⟩
    · simp only [if_neg h0]
      exact ⟨⟨rfl, hrr⟩, hw, by omega, rfl⟩
  | some rr => exact ⟨rr, hrr rr hw, rfl⟩

/-! ## The test of a candidate inside PRIMEGEN (rule R145) -/

/-- The test's request is PRIMEGEN's request. -/
theorem gen_run_ask (w : GenWork) {d : Draw} {m' : MrWork} :
    ∀ (f : Nat) (m : MrWork), runTicks (mrTick c) f m = .ask d m' →
      runTicks (genTick c) f { w with pt := .test m } = .ask d { w with pt := .test m' } := by
  intro f
  induction f with
  | zero => intro m h; simp [runTicks] at h
  | succ f ih =>
    intro m h
    cases ht : mrTick c m with
    | go m1 =>
      rw [runTicks_go ht] at h
      rw [runTicks_go (w' := { w with pt := .test m1 }) (by simp [genTick, ht, genOfMr])]
      exact ih m1 h
    | ask d1 m1 =>
      rw [runTicks_ask ht] at h
      rw [runTicks_ask (d := d1) (w' := { w with pt := .test m1 }) (by simp [genTick, ht, genOfMr])]
      simpa using h
    | ret b => rw [runTicks_ret ht] at h; simp at h
    | err e => rw [runTicks_err ht] at h; simp at h

/-- mr never changes its candidate. -/
theorem mrTick_n {m m' : MrWork} (h : mrTick c m = .go m') : m'.n = m.n := by
  unfold mrTick at h
  cases hp : m.pt <;> simp only [hp, mrEarly, mrHalve, mrRound, mrPower, mrTest, mrSquare, mrNextRound] at h <;>
    (repeat' split at h) <;> simp_all <;> subst h <;> rfl

/-- An accepted candidate is PRIMEGEN's result (rule R140). -/
theorem gen_run_accept (w : GenWork) :
    ∀ (f : Nat) (m : MrWork), runTicks (mrTick c) f m = .ret true →
      runTicks (genTick c) f { w with pt := .test m } = .ret m.n := by
  intro f
  induction f with
  | zero => intro m h; simp [runTicks] at h
  | succ f ih =>
    intro m h
    cases ht : mrTick c m with
    | go m1 =>
      rw [runTicks_go ht] at h
      rw [runTicks_go (w' := { w with pt := .test m1 }) (by simp [genTick, ht, genOfMr])]
      rw [ih m1 h, mrTick_n ht]
    | ask d1 m1 => rw [runTicks_ask ht] at h; simp at h
    | ret b =>
      rw [runTicks_ret ht] at h
      have : b = true := by simpa using h
      exact runTicks_ret (by simp [genTick, ht, genOfMr, this]) f
    | err e => rw [runTicks_err ht] at h; simp at h

/-- A rejected candidate leads to the request for the next (rules R140, R146). -/
theorem gen_run_reject (w : GenWork) (g : Nat) :
    ∀ (f : Nat) (m : MrWork), runTicks (mrTick c) f m = .ret false →
      runTicks (genTick c) (f + 1 + g) { w with pt := .test m } =
        .ask (.bits (w.bits + 1)) { w with pt := .draw } := by
  intro f
  induction f with
  | zero => intro m h; simp [runTicks] at h
  | succ f ih =>
    intro m h
    have hf : f + 1 + 1 + g = f + 1 + g + 1 := by omega
    cases ht : mrTick c m with
    | go m1 =>
      rw [runTicks_go ht] at h
      rw [hf, runTicks_go (w' := { w with pt := .test m1 }) (by simp [genTick, ht, genOfMr])]
      exact ih m1 h
    | ask d1 m1 => rw [runTicks_ask ht] at h; simp at h
    | ret b =>
      rw [runTicks_ret ht] at h
      have : b = false := by simpa using h
      have hf' : f + 1 + 1 + g = f + g + 1 + 1 := by omega
      rw [hf', runTicks_go (w' := { w with pt := .draw }) (by simp [genTick, ht, genOfMr, this])]
      exact runTicks_ask (by simp [genTick]) _
    | err e => rw [runTicks_err ht] at h; simp at h

/-- An error of the test is PRIMEGEN's error (rule R148). -/
theorem gen_run_err (w : GenWork) {e : ErrCode} :
    ∀ (f : Nat) (m : MrWork), runTicks (mrTick c) f m = .err e →
      runTicks (genTick c) f { w with pt := .test m } = .err e := by
  intro f
  induction f with
  | zero => intro m h; simp [runTicks] at h
  | succ f ih =>
    intro m h
    cases ht : mrTick c m with
    | go m1 =>
      rw [runTicks_go ht] at h
      rw [runTicks_go (w' := { w with pt := .test m1 }) (by simp [genTick, ht, genOfMr])]
      exact ih m1 h
    | ask d1 m1 => rw [runTicks_ask ht] at h; simp at h
    | ret b => rw [runTicks_ret ht] at h; simp at h
    | err e1 =>
      rw [runTicks_err ht] at h
      rw [runTicks_err (e := e1) (by simp [genTick, ht, genOfMr])]
      simpa using h

/-- What PRIMEGEN makes of the outcome of its candidate's test (rules R140, R145, R148). -/
def genAfterTest (w : GenWork) (n : Nat) : Tick MrWork Bool → Tick GenWork Nat
  | .go m => .go { w with pt := .test m }
  | .ask d m => .ask d { w with pt := .test m }
  | .ret true => .ret n
  | .ret false => .ask (.bits (w.bits + 1)) { w with pt := .draw }
  | .err e => .err e

/-- PRIMEGEN's run through the test of a candidate, given that the test's own run stops. -/
theorem gen_run_test (w : GenWork) (m : MrWork) (hp : w.pt = .test m)
    (hstop : ∀ m', runTicks (mrTick c) (mrBudget m) m ≠ .go m') :
    runTicks (genTick c) (genBudget w) w = genAfterTest w m.n (runTicks (mrTick c) (mrBudget m) m) := by
  have hw : w = { w with pt := .test m } := by rw [← hp]
  have hb : genBudget w = mrBudget m + 1 + 1 := by simp only [genBudget, hp]; omega
  have hmore := fun g => runTicks_more (tick := mrTick c) g (mrBudget m) m hstop
  cases hr : runTicks (mrTick c) (mrBudget m) m with
  | go m' => exact absurd hr (hstop m')
  | ask d m' =>
    rw [hb, hw]
    exact gen_run_ask w _ m (by rw [add_assoc, hmore, hr])
  | ret b =>
    cases b with
    | true =>
      rw [hb, hw]
      exact gen_run_accept w _ m (by rw [add_assoc, hmore, hr])
    | false =>
      rw [hb, hw]
      exact gen_run_reject w 1 _ m hr
  | err e =>
    rw [hb, hw]
    exact gen_run_err w _ m (by rw [add_assoc, hmore, hr])

/-! ## Everything an engine step of PRIMEGEN can do -/

/-- PRIMEGEN at work with a given snapshot (rules R142 to R145). -/
def GenWork.OkFor (c : Config) (bits k : Nat) (w : GenWork) : Prop :=
  w.bits = bits ∧ w.k = k ∧ bits < 2 ^ 32 ∧ k < 2 ^ 32 ∧
  match w.pt with
  | .check => True
  | .draw => bits + 1 ≤ c.width
  | .test m => bits + 1 ≤ c.width ∧ 2 ^ bits ≤ m.n ∧ m.n < 2 ^ (bits + 1) ∧ m.OkFor c m.n k

/-- The request that stands while PRIMEGEN works: a candidate's, or a witness's of its test (rule R151). -/
def GenWork.DrawOk (c : Config) (w : GenWork) (d : Option Draw) : Prop :=
  match w.pt with
  | .check => d = none
  | .draw => d = none ∨ d = some (.bits (w.bits + 1))
  | .test m => m.DrawOk c d

/-- What a result of PRIMEGEN satisfies (rules R142, R150). -/
def GenResult (bits v : Nat) : Prop := 2 ^ bits ≤ v ∧ v < 2 ^ (bits + 1) ∧ (v = 2 ∨ (3 ≤ v ∧ v % 2 = 1))

/-- Everything one engine step of PRIMEGEN can do (rules R140 to R150). -/
theorem genTick_sat {bits k : Nat} (w : GenWork) (h : w.OkFor c bits k) :
    (genTick c w).Sat (GenWork.OkFor c bits k)
      (fun d w' => w'.OkFor c bits k ∧ w'.DrawOk c (some d) ∧ d.legal c = true)
      (GenResult bits)
      (fun e => (e = .range ∧ c.width < bits + 1) ∨ (e = .rngBound ∧ 1 ≤ k ∧ bits = 1)) := by
  obtain ⟨rfl, rfl, hb, hk, hpt⟩ := h
  unfold genTick
  cases hp : w.pt with
  | check =>
    simp only
    split
    · next hw => exact .inl ⟨rfl, hw⟩
    · next hw => exact ⟨rfl, rfl, hb, hk, by simpa using hw⟩
  | draw =>
    rw [hp] at hpt
    simp only at hpt
    refine ⟨⟨rfl, rfl, hb, hk, by rw [hp]; exact hpt⟩, ?_, ?_⟩
    · simp [GenWork.DrawOk, hp]
    · simp [Draw.legal, hpt]
  | test m =>
    rw [hp] at hpt
    obtain ⟨hW, hlo, hhi, hok⟩ := hpt
    have hs := mrTick_sat m hok
    simp only
    cases ht : mrTick c m with
    | go m' =>
      rw [ht] at hs
      obtain ⟨h1, h2, h3⟩ := hs
      refine ⟨rfl, rfl, hb, hk, hW, ?_⟩
      rw [h2]
      exact ⟨hlo, hhi, h1, h2, h3⟩
    | ask d m' =>
      rw [ht] at hs
      obtain ⟨⟨h1, h2, h3⟩, hd, hl⟩ := hs
      refine ⟨⟨rfl, rfl, hb, hk, hW, ?_⟩, hd, hl⟩
      rw [h2]
      exact ⟨hlo, hhi, h1, h2, h3⟩
    | ret b =>
      rw [ht] at hs
      cases b with
      | true => exact ⟨hlo, hhi, by simpa [Tick.Sat, MrResult] using hs⟩
      | false => exact ⟨rfl, rfl, hb, hk, hW⟩
    | err e =>
      rw [ht] at hs
      obtain ⟨h1, h2, h3⟩ := hs
      refine .inr ⟨h1, h2, ?_⟩
      rw [h3] at hlo hhi
      by_contra hne
      rcases Nat.lt_or_ge w.bits 1 with h | h
      · have : w.bits = 0 := by omega
        simp [this] at hhi
      · have : 2 ^ 2 ≤ 2 ^ w.bits := Nat.pow_le_pow_right (by omega) (by omega)
        omega

/-- A lawful answer leaves PRIMEGEN in a good state: a candidate of exactly bits + 1 bits (rule R142), or
a witness of its test. -/
theorem genResume_ok {bits k v : Nat} {d : Draw} {w : GenWork} (h : w.OkFor c bits k)
    (hd : w.DrawOk c (some d)) (hl : d.lawful v = true) : (genResume w v).OkFor c bits k := by
  obtain ⟨rfl, rfl, hb, hk, hpt⟩ := h
  unfold GenWork.DrawOk at hd
  unfold genResume
  cases hp : w.pt with
  | check => simp [hp] at hd
  | draw =>
    rw [hp] at hpt hd
    have hd' : d = .bits (w.bits + 1) := by simpa using hd
    rw [hd'] at hl
    simp only [Draw.lawful, Nat.add_sub_cancel, Bool.and_eq_true, decide_eq_true_eq] at hl
    have : v < 2 ^ c.width := hl.2.trans_le (Nat.pow_le_pow_right (by omega) hpt)
    exact ⟨rfl, rfl, hb, hk, hpt, hl.1, hl.2, mrStart_ok this hk⟩
  | test m =>
    rw [hp] at hpt hd
    obtain ⟨hW, hlo, hhi, hok⟩ := hpt
    obtain ⟨h1, h2, h3⟩ := mrResume_ok hok hd hl
    refine ⟨rfl, rfl, hb, hk, hW, ?_⟩
    rw [h2]
    exact ⟨hlo, hhi, h1, h2, h3⟩

end Sys2Proof.Machine
end

