-- ==== Sys2Proof/Laws/Command.lean ====
section
/-! SUPPORT. The meanings of the commands and the machine's step: what each is on an IDLE and on a BUSY
engine, and everything they can do. -/

namespace Sys2Proof.Machine

variable {s t : State}

/-! ## The meanings while BUSY with their own command -/

theorem exec_powmod_busy {rd ra rb rc : XName} {w : PowWork} (h : s.phase = .busy (.powmod rd ra rb rc w)) :
    exec (.powmod rd ra rb rc) s = .next (s.engineRun powmodTick powmodResume powmodBudget
      (.powmod rd ra rb rc) (fun v t => t.writeX rd v) w) := by
  simp [exec, execPowmod, h]

theorem exec_isprime_busy {ra : XName} {w : MrWork} (h : s.phase = .busy (.isprime ra w)) :
    exec (.isprime ra) s = .next (s.engineRun (mrTick s.cfg) mrResume mrBudget (.isprime ra)
      (fun res t => t.writePrime res) w) := by
  simp [exec, execIsprime, h]

theorem exec_primegen_busy {rd : XName} {sel : BitSel} {w : GenWork}
    (h : s.phase = .busy (.primegen rd sel w)) :
    exec (.primegen rd sel) s = .next (s.engineRun (genTick s.cfg) genResume genBudget (.primegen rd sel)
      (fun v t => t.writeX rd v) w) := by
  simp [exec, execPrimegen, h]

theorem exec_split_busy {w : SplitWork} (h : s.phase = .busy (.split w)) :
    exec .split s = .next (s.engineRun splitTick splitResume splitBudget .split
      (fun r t => t.writeSplit r) w) := by
  simp [exec, execSplit, h]

/-! ## Every command answers a next state (rule R160) -/

theorem exec_next (i : Instr) (s : State) : ∃ t, exec i s = .next t := by
  cases i <;> simp only [exec, execPowmod, execIsprime, execPrimegen, execSplit] <;> cases s.phase with
  | idle => exact ⟨_, rfl⟩
  | busy r => cases r <;> simp only <;> (try split) <;> exact ⟨_, rfl⟩

/-- A command is accepted while IDLE: only CMD, DONE, ERRCODE, the phase and the recorded fault change
(rules R34, R169). -/
theorem exec_idle (i : Instr) (h : s.phase = .idle) :
    ∃ r f, exec i s = .next { s.accept (encode i) r with recorded := f } ∧ r.command = some i ∧
      (s.recorded = f ∨ f = some .unwrittenRead) := by
  have hmark : ∀ ks, ∃ f, s.markSnapshot ks = { s with recorded := f } ∧
      (s.recorded = f ∨ f = some .unwrittenRead) := fun ks => by
    rcases s.markSnapshot_eq ks with hm | hm <;> rw [hm]
    · exact ⟨s.recorded, rfl, .inl rfl⟩
    · exact ⟨_, rfl, .inr rfl⟩
  cases i with
  | powmod rd ra rb rc =>
    obtain ⟨f, hm, hf⟩ := hmark [ra, rb, rc]
    refine ⟨.powmod rd ra rb rc (powmodSnapshot ra rb rc s), f, ?_, rfl, hf⟩
    simp only [exec, execPowmod, h, hm]
    rfl
  | isprime ra =>
    obtain ⟨f, hm, hf⟩ := hmark [ra]
    refine ⟨.isprime ra (mrStart (s.xval ra) s.rounds), f, ?_, rfl, hf⟩
    simp only [exec, execIsprime, h, hm]
    rfl
  | primegen rd sel =>
    refine ⟨.primegen rd sel { bits := (s.bitsOf sel).toNat, k := s.rounds, pt := .check }, s.recorded, ?_,
      rfl, .inl rfl⟩
    simp only [exec, execPrimegen, h]
    rfl
  | split =>
    refine ⟨.split { nbits := s.bits.toNat, rr := none }, s.recorded, ?_, rfl, .inl rfl⟩
    simp only [exec, execSplit, h]
    rfl

/-! ## The engine's step -/

theorem engineStep_idle (h : s.phase = .idle) : engineStep s = .next s := by
  simp [engineStep, h]

theorem engineStep_command {r : Running} {i : Instr} (h : s.phase = .busy r) (hc : r.command = some i) :
    engineStep s = exec i s := by
  simp [engineStep, h, hc]

theorem engineStep_illegal (h : s.phase = .busy .illegal) : engineStep s = .next (s.raiseError .illegal) := by
  simp [engineStep, h, Running.command]

/-- What a completion without an error writes (rule R45). -/
def CompletedBy (s t : State) : Instr → Prop
  | .powmod rd _ _ _ => ∃ v, t = (s.writeX rd v).complete
  | .isprime _ => ∃ b, t = (s.writePrime b).complete
  | .primegen rd _ => ∃ v, t = (s.writeX rd v).complete
  | .split => ∃ r, t = (s.writeSplit r).complete

/-! ## The errors of the engine steps (rule R164) -/

theorem powmodTick_err {w : PowWork} {e : ErrCode} (h : powmodTick w = .err e) : e = .divzero := by
  unfold powmodTick at h
  repeat' split at h
  all_goals cases h
  rfl

theorem mrTick_err {c : Config} {w : MrWork} {e : ErrCode} (h : mrTick c w = .err e) : e = .rngBound := by
  cases hp : w.pt <;>
    simp only [mrTick, hp, mrEarly, mrHalve, mrRound, mrPower, mrTest, mrSquare] at h <;>
    repeat' split at h
  all_goals cases h
  rfl

theorem genTick_err {c : Config} {w : GenWork} {e : ErrCode} (h : genTick c w = .err e) :
    e = .range ∨ e = .rngBound := by
  cases hp : w.pt with
  | check =>
    simp only [genTick, hp] at h
    split at h <;> cases h
    exact .inl rfl
  | draw =>
    simp only [genTick, hp] at h
    cases h
  | test m =>
    simp only [genTick, hp] at h
    cases hm : mrTick c m with
    | err e1 =>
      rw [hm] at h
      cases h
      exact .inr (mrTick_err hm)
    | go _ => rw [hm] at h; cases h
    | ask _ _ => rw [hm] at h; cases h
    | ret b => rw [hm] at h; cases b <;> cases h

theorem splitTick_err {w : SplitWork} {e : ErrCode} (h : splitTick w = .err e) : e = .rngBound := by
  unfold splitTick at h
  repeat' split at h
  all_goals cases h
  rfl

/-- Everything an engine step of a running command can do: wait or come to a new point with nothing
written; complete with its results; end with an error and nothing written (rules R40, R45, R163). -/
theorem exec_busy_cases {r : Running} {i : Instr} (h : s.phase = .busy r) (hc : r.command = some i)
    (ht : exec i s = .next t) :
    (∃ r' d a, r'.command = some i ∧ t = { s with phase := .busy r', draw := d, ack := a }) ∨
    CompletedBy s t i ∨ ∃ e, e ≠ .noError ∧ t = s.raiseError e := by
  have hT : ∀ {σ ρ : Type} {tick : σ → Tick σ ρ} {resume : σ → Nat → σ} {budget : σ → Nat}
      {put : σ → Running} {write : ρ → State → State} {w : σ},
      (∀ w e, tick w = .err e → e ≠ .noError) → r = put w → (∀ w, (put w).command = some i) →
      (∀ r d a, write r { s with draw := d, ack := a } = { write r s with draw := d, ack := a }) →
      t = s.engineRun tick resume budget put write w →
      (∃ r' d a, r'.command = some i ∧ t = { s with phase := .busy r', draw := d, ack := a }) ∨
      (∃ r, t = (write r s).complete) ∨ ∃ e, e ≠ .noError ∧ t = s.raiseError e := by
    intro σ ρ tick resume budget put write w herr hr hcmd hwrite ht
    have hsat : ∀ w, True → (tick w).Sat (fun _ => True) (fun _ _ => True) (fun _ => True)
        (fun e => e ≠ .noError) := by
      intro w _
      cases hw : tick w with
      | err e => exact herr w e hw
      | go _ => trivial
      | ask _ _ => trivial
      | ret _ => trivial
    rcases engineRun_sat (resume := resume) (budget := budget) (put := put) hsat (w := w) trivial
      (fun _ _ _ _ => trivial) hwrite with
      ⟨h1, _⟩ | ⟨w', a, _, _, h1⟩ | ⟨d, w', a, _, _, h1⟩ | ⟨r, _, h1⟩ | ⟨e, he, h1⟩ | ⟨h1, _⟩ <;>
      rw [h1] at ht
    · exact .inl ⟨r, s.draw, s.ack, hc, by rw [ht, ← h]⟩
    · exact .inl ⟨_, _, _, hcmd w', ht⟩
    · exact .inl ⟨_, _, _, hcmd w', ht⟩
    · exact .inr (.inl ⟨r, ht⟩)
    · exact .inr (.inr ⟨e, he, ht⟩)
    · exact .inr (.inr ⟨_, by simp, ht⟩)
  cases r with
  | illegal => simp [Running.command] at hc
  | powmod rd ra rb rc w =>
    obtain rfl : i = .powmod rd ra rb rc := by simpa [Running.command] using hc.symm
    rw [exec_powmod_busy h] at ht
    exact hT (tick := powmodTick) (fun w e he => by rw [powmodTick_err he]; simp) rfl (fun _ => rfl)
      (fun _ _ _ => rfl) (by simpa using ht.symm)
  | isprime ra w =>
    obtain rfl : i = .isprime ra := by simpa [Running.command] using hc.symm
    rw [exec_isprime_busy h] at ht
    exact hT (tick := mrTick s.cfg) (fun w e he => by rw [mrTick_err he]; simp) rfl (fun _ => rfl)
      (fun _ _ _ => rfl) (by simpa using ht.symm)
  | primegen rd sel w =>
    obtain rfl : i = .primegen rd sel := by simpa [Running.command] using hc.symm
    rw [exec_primegen_busy h] at ht
    exact hT (tick := genTick s.cfg)
      (fun w e he => by rcases genTick_err he with h | h <;> rw [h] <;> simp) rfl (fun _ => rfl)
      (fun _ _ _ => rfl) (by simpa using ht.symm)
  | split w =>
    obtain rfl : i = .split := by simpa [Running.command] using hc.symm
    rw [exec_split_busy h] at ht
    exact hT (tick := splitTick) (fun w e he => by rw [splitTick_err he]; simp) rfl (fun _ => rfl)
      (fun _ _ _ => rfl) (by simpa using ht.symm)

/-! ## The random source's answers (rules R24, R130, R191) -/

theorem State.answered_some {d : Draw} {v : Nat} (h : s.inFlight = some d) :
    s.answered v = { s with ack := some v } := by
  simp [State.answered, h]

theorem State.answered_none {v : Nat} (h : s.inFlight = none) : s.answered v = s := by
  simp [State.answered, h]

theorem State.answeredFree_some {d : Draw} (h : s.inFlight = some d) :
    s.answeredFree = { s with ack := some (d.freeAnswer (Config.freeNumber s.fresh)), fresh := s.fresh + 1 } := by
  simp [State.answeredFree, h]

theorem State.answeredFree_none (h : s.inFlight = none) : s.answeredFree = s := by
  simp [State.answeredFree, h]

/-- A free answer keeps the law of every request the port can carry. -/
theorem Draw.freeAnswer_lawful {c : Config} {d : Draw} (h : d.legal c = true) (n : Nat) :
    d.lawful (d.freeAnswer n) = true := by
  cases d with
  | below b =>
    simp only [Draw.legal, Bool.and_eq_true, decide_eq_true_eq] at h
    exact decide_eq_true (Nat.mod_lt n h.1)
  | bits k =>
    simp only [Draw.legal, Bool.and_eq_true, decide_eq_true_eq] at h
    have hk : 2 ^ k = 2 * 2 ^ (k - 1) := by rw [← pow_succ']; congr 1; omega
    have := Nat.mod_lt n (Nat.two_pow_pos (k - 1))
    rw [Draw.lawful, Draw.freeAnswer, Bool.and_eq_true, decide_eq_true_iff, decide_eq_true_iff]
    omega

/-- Every lawful answer is the free answer that some number gives. -/
theorem Draw.freeAnswer_surjective {d : Draw} {v : Nat} (h : d.lawful v = true) :
    ∃ n, d.freeAnswer n = v := by
  cases d with
  | below b =>
    refine ⟨v, Nat.mod_eq_of_lt ?_⟩
    simpa [Draw.lawful] using h
  | bits k =>
    simp only [Draw.lawful, Bool.and_eq_true, decide_eq_true_eq] at h
    have hk : 2 ^ k ≤ 2 * 2 ^ (k - 1) := by
      rw [← pow_succ']
      exact Nat.pow_le_pow_right (by omega) (by omega)
    refine ⟨v - 2 ^ (k - 1), ?_⟩
    simp only [Draw.freeAnswer]
    rw [Nat.mod_eq_of_lt (by omega)]
    omega

/-! ## The machine's step -/

theorem step_valid (h : s.cfg.valid = true) : step s = nextMove s := by
  simp [step, h]

/-- A step is the move whose turn it is. -/
theorem step_turn (h : s.cfg.valid = true) : step s = handleEvent s.turn.1 s.afterTurn := by
  simp [step, h, nextMove]

/-- A step with a move listed. -/
theorem step_event {e : Event} {es : List Event} (h : s.cfg.valid = true) (hs : s.script = e :: es) :
    step s = handleEvent e { s with script := es } := by
  simp [step, h, nextMove, State.afterTurn, State.turn, hs]

/-- A step with the script run out and a cycle to begin again. -/
theorem step_cycle {e : Event} {es : List Event} (h : s.cfg.valid = true) (hs : s.script = [])
    (hc : s.cycle = e :: es) : step s = handleEvent e { s with script := es } := by
  simp [step, h, nextMove, State.afterTurn, State.turn, hs, hc]

/-- With no move to come, the engine's state after its turn is the state itself. -/
theorem afterTurn_empty (hs : s.script = []) (hc : s.cycle = []) : s.afterTurn = s := by
  unfold State.afterTurn State.turn
  rw [hs, hc]
  cases s
  simp_all

/-- A step with no move to come is the engine's. -/
theorem step_empty (h : s.cfg.valid = true) (hs : s.script = []) (hc : s.cycle = []) :
    step s = engineStep s := by
  have ht : s.turn.1 = .engine := by simp [State.turn, hs, hc]
  rw [step_turn h, ht, afterTurn_empty hs hc]
  rfl

/-- A step that answers a next state starts from a configuration of this hardware (rule R6). -/
theorem valid_of_step (h : step s = .next t) : s.cfg.valid = true := by
  by_contra hv
  simp [step, hv] at h

/-- Acceptance of a word, legal or not, while IDLE (rules R34, R166). -/
theorem acceptWord_idle (c : Word) (h : s.phase = .idle) :
    ∃ c' r f, acceptWord c s = .next { s.accept c' r with recorded := f } ∧
      (s.recorded = f ∨ f = some .unwrittenRead) := by
  unfold acceptWord
  cases decode c with
  | cmd i =>
    obtain ⟨r, f, he, _, hf⟩ := exec_idle i h
    exact ⟨_, r, f, he, hf⟩
  | illegal => exact ⟨c, .illegal, s.recorded, rfl, .inl rfl⟩

/-! ## Steps of the host's accesses (rules R58 to R60) -/

/-- The registers of the window by offset (rule R51). -/
theorem slotAt_scalar (c : Config) (o : BitVec 13) :
    (o.toNat = 0x000 → slotAt c o = .id) ∧ (o.toNat = 0x004 → slotAt c o = .cfg) ∧
    (o.toNat = 0x008 → slotAt c o = .ctrl) ∧ (o.toNat = 0x00C → slotAt c o = .status) ∧
    (o.toNat = 0x010 → slotAt c o = .cmd) ∧ (o.toNat = 0x014 → slotAt c o = .iters) ∧
    (o.toNat = 0x018 → slotAt c o = .bits) ∧ (o.toNat = 0x01C → slotAt c o = .pbits) ∧
    (o.toNat = 0x020 → slotAt c o = .qbits) := by
  refine ⟨?_, ?_, ?_, ?_, ?_, ?_, ?_, ?_, ?_⟩ <;> intro h <;> simp [slotAt, h]

/-- The step of a host read, at an aligned offset that decodes to `slot`. -/
theorem step_read {off : Nat} {es : List Event} {slot : Slot} (hv : s.cfg.valid = true) (h : off < 0x2000)
    (h4 : off % 4 = 0) (hs : ∀ o : BitVec 13, o.toNat = off → slotAt s.cfg o = slot) :
    step { s with script := hostRead s.cfg off :: es } =
      .next ((State.readSlot { s with script := es } slot).2.respond false
        (some (State.readSlot { s with script := es } slot).1)) := by
  have hb := busStep_read (s := { s with script := es }) hv h h4
  have hs' := hs _ (portAddr_base hv h)
  rw [step_event (es := es) (by exact hv) rfl]
  simp only [hostRead, handleEvent, busEvent]
  rw [hb]
  simp only
  rw [hs']

/-- The step of a host write while BUSY, at an aligned offset that decodes to `slot`. -/
theorem step_write_busy {off : Nat} {es : List Event} {slot : Slot} {v : Word} (hv : s.cfg.valid = true)
    (hb : s.busy = true) (h : off < 0x2000) (h4 : off % 4 = 0)
    (hs : ∀ o : BitVec 13, o.toNat = off → slotAt s.cfg o = slot) :
    step { s with script := hostWrite s.cfg off v :: es } =
      .next ((State.writeBusy { s with script := es } v slot).respond false none) := by
  have hw := busStep_write_busy (s := { s with script := es }) hv hb h h4 v
  have hs' := hs _ (portAddr_base hv h)
  rw [step_event (es := es) (by exact hv) rfl]
  simp only [hostWrite, handleEvent, busEvent]
  rw [hw]
  simp only
  rw [hs']

/-- The step of a host write while IDLE, at an aligned offset that decodes to `slot` and is not CMD. -/
theorem step_write_idle {off : Nat} {es : List Event} {slot : Slot} {v : Word} (hv : s.cfg.valid = true)
    (hb : s.busy = false) (h : off < 0x2000) (h4 : off % 4 = 0)
    (hs : ∀ o : BitVec 13, o.toNat = off → slotAt s.cfg o = slot) (hc : slot ≠ .cmd) :
    step { s with script := hostWrite s.cfg off v :: es } =
      .next ((State.writeIdle { s with script := es } v slot).respond false none) := by
  have hw := busStep_write_idle (s := { s with script := es }) hv hb h h4 v
  have hs' := hs _ (portAddr_base hv h)
  rw [step_event (es := es) (by exact hv) rfl]
  simp only [hostWrite, handleEvent, busEvent]
  rw [hw]
  simp only
  rw [hs', if_neg hc]

/-- The step of a host write of a command word while IDLE. -/
theorem step_write_cmd {es : List Event} {v : Word} (hv : s.cfg.valid = true) (hb : s.busy = false) :
    step { s with script := hostWrite s.cfg 0x010 v :: es } =
      acceptWord v { s with script := es, resp := some { err := false, rdata := none } } := by
  have hw := busStep_write_idle (s := { s with script := es }) hv hb (off := 0x010) (by decide) (by decide) v
  have hs' := (slotAt_scalar s.cfg _).2.2.2.2.1 (portAddr_base hv (off := 0x010) (by decide))
  rw [step_event (es := es) (by exact hv) rfl]
  simp only [hostWrite, handleEvent, busEvent]
  rw [hw]
  simp only
  rw [hs', if_pos rfl]
  rfl

end Sys2Proof.Machine
end

