-- ==== Sys2Proof/Laws/Encoding.lean ====
section
/-! SUPPORT. Laws of the command words: a word is its fields side by side (rule R71), and what the
decoder's pieces give (rules R74, R78). -/

namespace Sys2Proof

/-- Two words that agree on every bit are equal. -/
theorem word_ext {a b : Word} (h : ∀ i, i < 32 → a.getLsbD i = b.getLsbD i) : a = b :=
  BitVec.eq_of_getLsbD_eq h

/-- The word that fields make, bit 31 first (rule R71). -/
def wordOfFields (f : CmdFields) : Word :=
  f.z5 ++ f.bsel ++ f.z4 ++ f.rc ++ f.z3 ++ f.rb ++ f.z2 ++ f.ra ++ f.z1 ++ f.rd ++ f.z0 ++ f.op

/-- A word is its fields side by side: no bit lies outside the fields (rule R71). -/
theorem wordOfFields_cmdFields (c : Word) : wordOfFields (cmdFields c) = c := by
  apply word_ext
  intro i hi
  simp only [wordOfFields, cmdFields, BitVec.getLsbD_append, BitVec.getLsbD_extractLsb']
  interval_cases i <;> simp

/-- The register and bit-count fields of a word, as the field table names them. -/
theorem regField_eq (c : Word) :
    regField c 8 = (cmdFields c).rd ∧ regField c 12 = (cmdFields c).ra ∧ regField c 16 = (cmdFields c).rb ∧
      regField c 20 = (cmdFields c).rc := ⟨rfl, rfl, rfl, rfl⟩

/-- BSEL names a bit-count source exactly when it is that source's code (rule R74). -/
theorem bselField_eq_some {c : Word} {sel : BitSel} : bselField c = some sel ↔ c.extractLsb' 24 2 = sel.code := by
  unfold bselField
  simp only
  generalize c.extractLsb' 24 2 = b
  cases sel <;> revert b <;> decide

/-- BSEL = 3 names none (rule R74). -/
theorem bselField_eq_none {c : Word} : bselField c = none ↔ c.extractLsb' 24 2 = 3#2 := by
  unfold bselField
  simp only
  generalize c.extractLsb' 24 2 = b
  revert b
  decide

/-- A match and mask test fixes the opcode bits (rules R72, R78). -/
theorem op_of_match {c mask v : Word} (h : c &&& mask = v) (hm : mask &&& 0xF = 0xF) : c &&& 0xF = v &&& 0xF := by
  rw [← h, BitVec.and_assoc, hm]

end Sys2Proof
end

