-- ==== Sys2Proof/Laws/Invariant.lean ====
section
/-! SUPPORT. Everything an engine step can do, from any state and from one that meets the invariant. -/

namespace Sys2Proof.Machine

/-- Everything an engine step of an accepted word can do (rules R40, R45, R163, R166). -/
theorem engineStep_cases {s t : State} {r : Running} (hp : s.phase = .busy r) (h : engineStep s = .next t) :
    (∃ r' d a, t = { s with phase := .busy r', draw := d, ack := a }) ∨
    (∃ i, r.command = some i ∧ CompletedBy s t i) ∨ ∃ e, e ≠ .noError ∧ t = s.raiseError e := by
  cases hc : r.command with
  | none =>
    have : r = .illegal := by cases r <;> simp_all [Running.command]
    rw [this] at hp
    rw [engineStep_illegal hp] at h
    cases h
    exact .inr (.inr ⟨_, by simp, rfl⟩)
  | some i =>
    rw [engineStep_command hp hc] at h
    rcases exec_busy_cases hp hc h with ⟨r', d, a, _, h⟩ | h | h
    · exact .inl ⟨r', d, a, h⟩
    · exact .inr (.inl ⟨i, rfl, h⟩)
    · exact .inr (.inr h)

/-- PRIMEGEN's part of the invariant in the terms of its engine steps. -/
theorem gen_of_running {c : Config} {d : Option Draw} {rd : XName} {sel : BitSel} {w : GenWork}
    (h : Running.Ok c d (.primegen rd sel w)) : w.OkFor c w.bits w.k ∧ w.DrawOk c d := by
  obtain ⟨h1, h2, h3⟩ := h
  unfold GenWork.OkFor GenWork.DrawOk
  cases hw : w.pt with
  | check => rw [hw] at h3; exact ⟨⟨rfl, rfl, h1, h2, trivial⟩, h3⟩
  | draw => rw [hw] at h3; exact ⟨⟨rfl, rfl, h1, h2, h3.1⟩, h3.2⟩
  | test m => rw [hw] at h3; obtain ⟨a, b, c, d, e, f⟩ := h3; exact ⟨⟨rfl, rfl, h1, h2, a, b, c, e, rfl, d⟩, f⟩

/-- The converse. -/
theorem gen_running {c : Config} {w : GenWork} {d : Option Draw} {bits k : Nat} (rd : XName) (sel : BitSel)
    (h1 : w.OkFor c bits k) (h2 : w.DrawOk c d) : Running.Ok c d (.primegen rd sel w) := by
  obtain ⟨rfl, rfl, hb, hk, hpt⟩ := h1
  refine ⟨hb, hk, ?_⟩
  unfold GenWork.DrawOk at h2
  cases hw : w.pt with
  | check => rw [hw] at h2; exact h2
  | draw => rw [hw] at h2 hpt; exact ⟨hpt, h2⟩
  | test m => rw [hw] at h2 hpt; obtain ⟨a, b, c, d, e, f⟩ := hpt; exact ⟨a, b, c, f, d, h2⟩

/-- No request is always a possible state of the port. -/
theorem genDrawOk_none {c : Config} (w : GenWork) : w.DrawOk c none := by
  unfold GenWork.DrawOk
  cases w.pt <;> simp [MrWork.DrawOk]


/-- An answer left on the port by a step that makes no request is gone (rule R24). -/
theorem ack_gone {s : State} (hI : s.Inv) {a : Option Nat} (h : a = none ∨ s.draw = none ∧ a = s.ack) : a = none := by
  rcases h with h | ⟨h1, h2⟩
  · exact h
  · rw [h2, hI.ackOfDraw h1]

/-- The errors that the command of a running state can raise (rule R164). -/
def Running.errors : Running → List ErrCode
  | .illegal => [.illegal]
  | .powmod _ _ _ _ _ => [.divzero]
  | .isprime _ _ => [.rngBound, .rngLaw]
  | .split _ => [.rngBound, .rngLaw]
  | .primegen _ _ _ => [.range, .rngBound, .rngLaw]

/-- Everything an engine step can do from a state that meets the invariant: wait; come to a new point that
the pseudocode can reach, with a legal request or none; complete; raise one of the command's errors. -/
theorem engineStep_inv {s t : State} {r : Running} (hI : s.Inv) (hp : s.phase = .busy r)
    (h : engineStep s = .next t) :
    t = s ∨
    (∃ r' d a, t = { s with phase := .busy r', draw := d, ack := a } ∧ r'.Ok s.cfg d ∧
      (∀ d', d = some d' → d'.legal s.cfg = true) ∧ (d = none → a = none)) ∨
    (∃ i, r.command = some i ∧ CompletedBy s t i) ∨
    ∃ e, t = s.raiseError e ∧ e ∈ Running.errors r := by
  have hok := hI.runningOk _ hp
  cases r with
  | illegal =>
    rw [engineStep_illegal hp] at h
    cases h
    exact .inr (.inr (.inr ⟨_, rfl, by simp [Running.errors]⟩))
  | powmod rd ra rb rc w =>
    obtain ⟨hd, hb, he, hm, hl⟩ := hok
    rw [engineStep_command hp rfl, exec_powmod_busy hp] at h
    have h' := Host.Outcome.next.inj h
    have hs := engineRun_sat (s := s) (tick := powmodTick) (resume := powmodResume) (budget := powmodBudget)
      (put := .powmod rd ra rb rc) (write := fun v t => t.writeX rd v) (w := w)
      (P := PowWork.Ok w.b w.e w.m) (fun w h => powmodTick_sat w h) ⟨rfl, rfl, rfl, hl⟩
      (fun d v h _ => by rw [hd] at h; cases h) (fun r d a => rfl)
    simp only [h'] at hs
    rcases hs with ⟨h1, _⟩ | ⟨w', a, hw', ha, h1⟩ | ⟨d, w', a, hF, _, h1⟩ | ⟨r, hr, h1⟩ | ⟨e, he, h1⟩ |
      ⟨h1, d, v, h2, _⟩
    · exact .inl h1
    · obtain ⟨e1, e2, e3, e4⟩ := hw'
      refine .inr (.inl ⟨_, _, _, h1, ⟨rfl, ?_⟩, (fun _ h => by cases h), fun _ => ack_gone hI ha⟩)
      rw [e1, e2, e3]
      exact ⟨hb, he, hm, e4⟩
    · exact hF.elim
    · exact .inr (.inr (.inl ⟨_, rfl, r, h1⟩))
    · exact .inr (.inr (.inr ⟨e, h1, by simp [he.2, Running.errors]⟩))
    · rw [hd] at h2
      cases h2
  | isprime ra w =>
    obtain ⟨hok, hd⟩ := hok
    rw [engineStep_command hp rfl, exec_isprime_busy hp] at h
    have h' := Host.Outcome.next.inj h
    have hs := engineRun_sat (s := s) (tick := mrTick s.cfg) (resume := mrResume) (budget := mrBudget)
      (put := .isprime ra) (write := fun res t => t.writePrime res) (w := w)
      (P := MrWork.OkFor s.cfg w.n w.k) (fun w h => mrTick_sat w h) ⟨hok, rfl, rfl⟩
      (fun d v h hl => mrResume_ok ⟨hok, rfl, rfl⟩ (h ▸ hd) hl) (fun r d a => rfl)
    simp only [h'] at hs
    rcases hs with ⟨h1, _⟩ | ⟨w', a, hw', ha, h1⟩ | ⟨d, w', a, ⟨hA, hB, hC⟩, _, h1⟩ | ⟨r, hr, h1⟩ |
      ⟨e, he, h1⟩ | ⟨h1, _⟩
    · exact .inl h1
    · exact .inr (.inl ⟨_, _, _, h1, ⟨hw'.1, .inl rfl⟩, (fun _ h => by cases h), fun _ => ack_gone hI ha⟩)
    · exact .inr (.inl ⟨_, _, _, h1, ⟨hA.1, hB⟩, (fun _ h => by cases h; exact hC), fun h => by cases h⟩)
    · exact .inr (.inr (.inl ⟨_, rfl, r, h1⟩))
    · exact .inr (.inr (.inr ⟨e, h1, by simp [he.1, Running.errors]⟩))
    · exact .inr (.inr (.inr ⟨_, h1, by simp [Running.errors]⟩))
  | primegen rd sel w =>
    obtain ⟨hw, hd⟩ := gen_of_running hok
    rw [engineStep_command hp rfl, exec_primegen_busy hp] at h
    have h' := Host.Outcome.next.inj h
    have hs := engineRun_sat (s := s) (tick := genTick s.cfg) (resume := genResume) (budget := genBudget)
      (put := .primegen rd sel) (write := fun v t => t.writeX rd v) (w := w)
      (P := GenWork.OkFor s.cfg w.bits w.k) (fun w h => genTick_sat w h) hw
      (fun d v h hl => genResume_ok hw (h ▸ hd) hl) (fun r d a => rfl)
    simp only [h'] at hs
    rcases hs with ⟨h1, _⟩ | ⟨w', a, hw', ha, h1⟩ | ⟨d, w', a, ⟨hA, hB, hC⟩, _, h1⟩ | ⟨r, hr, h1⟩ |
      ⟨e, he, h1⟩ | ⟨h1, _⟩
    · exact .inl h1
    · exact .inr (.inl ⟨_, _, _, h1, gen_running rd sel hw' (genDrawOk_none _), (fun _ h => by cases h),
        fun _ => ack_gone hI ha⟩)
    · exact .inr (.inl ⟨_, _, _, h1, gen_running rd sel hA hB, (fun _ h => by cases h; exact hC),
        fun h => by cases h⟩)
    · exact .inr (.inr (.inl ⟨_, rfl, r, h1⟩))
    · refine .inr (.inr (.inr ⟨e, h1, ?_⟩))
      rcases he with he | he <;> simp [he.1, Running.errors]
    · exact .inr (.inr (.inr ⟨_, h1, by simp [Running.errors]⟩))
  | split w =>
    obtain ⟨hb, hd⟩ := hok
    have hw : w.OkFor w.nbits := ⟨rfl, fun rr h => by rw [h] at hd; exact hd.2⟩
    rw [engineStep_command hp rfl, exec_split_busy hp] at h
    have h' := Host.Outcome.next.inj h
    have hs := engineRun_sat (s := s) (tick := splitTick) (resume := splitResume) (budget := splitBudget)
      (put := .split) (write := fun v t => t.writeSplit v) (w := w)
      (P := SplitWork.OkFor w.nbits) (fun w h => splitTick_sat w h) hw ?_ (fun r d a => rfl)
    · simp only [h'] at hs
      rcases hs with ⟨h1, _⟩ | ⟨w', a, hw', ha, h1⟩ | ⟨d, w', a, ⟨hA, hB, hC, hD⟩, _, h1⟩ | ⟨r, hr, h1⟩ |
        ⟨e, he, h1⟩ | ⟨h1, _⟩
      · exact .inl h1
      · refine .inr (.inl ⟨_, _, _, h1, ⟨hw'.1 ▸ hb, ?_⟩, (fun _ h => by cases h), fun _ => ack_gone hI ha⟩)
        cases hr : w'.rr with
        | none => exact .inl rfl
        | some rr => exact ⟨rfl, by have := hw'.2 rr hr; rwa [hw'.1]⟩
      · refine .inr (.inl ⟨_, _, _, h1, ⟨hA.1 ▸ hb, ?_⟩, fun d' h => ?_, fun h => by cases h⟩)
        · rw [hB, hA.1]
          exact .inr ⟨hC, by rw [hD]⟩
        · cases h
          have hW := (valid_iff.1 hI.cfgValid).1.1
          have : 2 ^ 32 ≤ 2 ^ s.cfg.width := Nat.pow_le_pow_right (by omega) (by unfold Config.width; omega)
          simp only [hD, Draw.legal, Bool.and_eq_true, decide_eq_true_eq]
          omega
      · exact .inr (.inr (.inl ⟨_, rfl, r, h1⟩))
      · exact .inr (.inr (.inr ⟨e, h1, by simp [he.1, Running.errors]⟩))
      · exact .inr (.inr (.inr ⟨_, h1, by simp [Running.errors]⟩))
    · intro d v h hl
      rw [h] at hd
      cases hr : w.rr with
      | none =>
        rw [hr] at hd
        obtain ⟨_, hd⟩ | hd := hd
        refine ⟨rfl, fun rr h => ?_⟩
        simp only [splitResume, Option.some.injEq] at h
        subst h
        rw [Option.some.inj hd.2] at hl
        simpa [Draw.lawful] using hl
      | some rr =>
        rw [hr] at hd
        cases hd.1

end Sys2Proof.Machine
end

