-- ==== Sys2Proof/Laws/PerInstr.lean ====
section
/-! SUPPORT. The family CommandWords: the word of each command is legal by the field table of rules R71 to
R77, and carries the command's opcode (rule R72). -/

namespace Sys2Proof.Laws.CommandWords

/-- The opcode of a command (rule R72). -/
def opcode : Instr → BitVec 4
  | .powmod _ _ _ _ => 1
  | .isprime _ => 2
  | .primegen _ _ => 3
  | .split => 4

/-- The command's word is legal and carries its opcode. -/
def Statement (i : Instr) : Prop :=
  wordLegal (encode i) = true ∧ (cmdFields (encode i)).op = opcode i

theorem powmod (rd ra rb rc : XName) : Statement (.powmod rd ra rb rc) := by
  have h : cmdFields (encode (.powmod rd ra rb rc)) =
      { op := 1, z0 := 0, rd := rd, z1 := 0, ra := ra, z2 := 0, rb := rb, z3 := 0, rc := rc, z4 := 0
        bsel := 0, z5 := 0 } := by
    simp only [cmdFields, encode, CmdFields.mk.injEq]
    refine ⟨?_, ?_, ?_, ?_, ?_, ?_, ?_, ?_, ?_, ?_, ?_, ?_⟩ <;> apply BitVec.eq_of_getLsbD_eq <;> intro i hi <;>
      simp only [BitVec.getLsbD_extractLsb', BitVec.getLsbD_append] <;> interval_cases i <;> simp
  simp [Statement, wordLegal, h, opcode, CmdFields.opOk, CmdFields.zerosOk, CmdFields.unusedOk, CmdFields.bselOk]

theorem isprime (ra : XName) : Statement (.isprime ra) := by
  revert ra
  unfold Statement
  decide

theorem primegen (rd : XName) (sel : BitSel) : Statement (.primegen rd sel) := by
  cases sel <;> revert rd <;> unfold Statement <;> decide

theorem split : Statement .split := by
  unfold Statement
  decide

end Sys2Proof.Laws.CommandWords
end

