-- ==== Sys2Proof/Laws/Step.lean ====
section
/-! SUPPORT. Everything one step of the machine can do, and runs of several steps. -/

namespace Sys2Proof.Machine

variable {s t : State}

/-- What acceptance leaves running is at the start of its pseudocode (rules R34, R40). -/
theorem acceptWord_ok (c : Word) (h : s.phase = .idle) (hx : ∀ k, (s.xreg k).length = s.cfg.nlimbs)
    {r : Running} (ht : acceptWord c s = .next t) (hr : t.phase = .busy r) : r.Ok s.cfg none := by
  have hval : ∀ k, s.xval k < 2 ^ s.cfg.width := fun k => by
    unfold State.xval Config.width; rw [← hx k]; exact limbsVal_lt _
  have hk : s.iters.toNat < 2 ^ 32 := s.iters.isLt
  unfold acceptWord at ht
  cases hd : decode c with
  | illegal =>
    rw [hd] at ht
    cases ht
    cases hr
    rfl
  | cmd i =>
    rw [hd] at ht
    cases i with
    | powmod rd ra rb rc =>
      simp only [exec, execPowmod, h] at ht
      cases ht
      cases hr
      exact ⟨rfl, hval ra, hval rb, hval rc, fun l hl => by cases hl⟩
    | isprime ra =>
      simp only [exec, execIsprime, h] at ht
      cases ht
      cases hr
      exact ⟨⟨hval ra, hk, trivial⟩, .inl rfl⟩
    | primegen rd sel =>
      simp only [exec, execPrimegen, h] at ht
      cases ht
      cases hr
      exact ⟨(s.bitsOf sel).isLt, hk, rfl⟩
    | split =>
      simp only [exec, execSplit, h] at ht
      cases ht
      cases hr
      exact ⟨s.bits.isLt, .inl rfl⟩

/-- Everything a step can do. -/
theorem step_cases (h : step s = .next t) :
    let s' := s.afterTurn
    -- nothing but the bus outputs and the model's own bookkeeping: an IDLE engine, a refused or outside
    -- transfer, a read
    (∃ f n resp, t = { s' with recorded := f, fresh := n, resp := resp } ∧
      (s.recorded = f ∨ f = some .unwrittenRead)) ∨
    -- an answer to the request in flight
    (∃ v n, s.inFlight ≠ none ∧ t = { s' with ack := some v, fresh := n }) ∨
    -- a write of a scalar register, or one that is dropped
    (∃ a ie done ovr iters bits, s.turn.1 = .bus a ∧ a.write = true ∧
      inWindow s.cfg a.addr = true ∧
      t = { s' with ie := ie, done := done, ovr := ovr, iters := iters, bits := bits,
                    resp := some { err := false, rdata := none } } ∧
      (s.done = false → done = false) ∧
      (s.ovr = false → ovr = true → s.busy = true ∧ DroppedSlot (slotAt s.cfg (portAddr a.addr))) ∧
      (s.busy = true → iters = s.iters ∧ bits = s.bits)) ∨
    -- a write of a limb while IDLE
    (∃ a k i, s.phase = .idle ∧ s.turn.1 = .bus a ∧ a.write = true ∧
      inWindow s.cfg a.addr = true ∧ slotAt s.cfg (portAddr a.addr) = .limb k i ∧
      t = (s'.writeLimb k i a.wdata).respond false none) ∨
    -- an acceptance
    (∃ c r f, s.phase = .idle ∧
      t = { s'.accept c r with recorded := f, resp := some { err := false, rdata := none } } ∧
      (s.recorded = f ∨ f = some .unwrittenRead) ∧
      ((∀ k, (s.xreg k).length = s.cfg.nlimbs) → r.Ok s.cfg none)) ∨
    -- an engine step of the running command
    (∃ r, s.phase = .busy r ∧ engineStep s' = .next t) ∨
    -- reset
    (s.turn.1 = .reset ∧ t = s'.resetPulse) := by
  have hv := valid_of_step h
  have hengine : engineStep s.afterTurn = .next t →
      (∃ f n resp, t = { s.afterTurn with recorded := f, fresh := n, resp := resp } ∧
        (s.recorded = f ∨ f = some .unwrittenRead)) ∨
      (∃ r, s.phase = .busy r ∧ engineStep s.afterTurn = .next t) := fun he => by
    cases hp : s.phase with
    | idle =>
      rw [engineStep_idle (by exact hp)] at he
      cases he
      exact .inl ⟨s.recorded, s.fresh, s.resp, rfl, .inl rfl⟩
    | busy r => exact .inr ⟨r, rfl, he⟩
  rw [step_turn hv] at h
  cases hs : s.turn.1 with
  | engine =>
    rw [hs] at h
    rcases hengine h with h1 | h1
    · exact .inl h1
    · exact .inr (.inr (.inr (.inr (.inr (.inl h1)))))
  | reset =>
    rw [hs] at h
    cases h
    exact .inr (.inr (.inr (.inr (.inr (.inr ⟨rfl, rfl⟩)))))
  | answer v =>
    rw [hs] at h
    cases h
    cases hf : s.inFlight with
    | none =>
      rw [State.answered_none (s := s.afterTurn) hf]
      exact .inl ⟨s.recorded, s.fresh, s.resp, rfl, .inl rfl⟩
    | some d =>
      rw [State.answered_some (s := s.afterTurn) hf]
      exact .inr (.inl ⟨v, s.fresh, by simp, rfl⟩)
  | freeAnswer =>
    rw [hs] at h
    cases h
    cases hf : s.inFlight with
    | none =>
      rw [State.answeredFree_none (s := s.afterTurn) hf]
      exact .inl ⟨s.recorded, s.fresh, s.resp, rfl, .inl rfl⟩
    | some d =>
      rw [State.answeredFree_some (s := s.afterTurn) hf]
      exact .inr (.inl ⟨_, s.fresh + 1, by simp, rfl⟩)
  | bus a =>
    rw [hs] at h
    simp only [handleEvent, busEvent] at h
    rcases busStep_cases (s := s.afterTurn) a with ⟨r, hb⟩ | ⟨f, n, r, hb, hf⟩ | ⟨hb1, hw, hin, hb⟩ |
      ⟨hb1, hw, hin, hb⟩ | ⟨hb1, hw, hin, hc, hb⟩ <;> rw [hb] at h
    · cases h
      exact .inl ⟨s.recorded, s.fresh, r, rfl, .inl rfl⟩
    · cases h
      exact .inl ⟨f, n, r, rfl, hf⟩
    · cases h
      obtain ⟨ie, dn, ov, he, hd, ho⟩ := writeBusy_eq (s := s.afterTurn) a.wdata (slotAt s.cfg (portAddr a.addr))
      refine .inr (.inr (.inl ⟨a, ie, dn, ov, s.iters, s.bits, rfl, hw, hin, ?_, hd,
        fun h1 h2 => ⟨hb1, ho h1 h2⟩, fun _ => ⟨rfl, rfl⟩⟩))
      show (State.writeBusy s.afterTurn a.wdata (slotAt s.cfg (portAddr a.addr))).respond false none = _
      rw [he]
      rfl
    · cases h
      rcases writeIdle_eq (s := s.afterTurn) a.wdata (slotAt s.cfg (portAddr a.addr)) with
        ⟨ie, dn, ov, it, bi, he, hd, ho⟩ | ⟨k, i, hsl, he⟩
      · refine .inr (.inr (.inl ⟨a, ie, dn, ov, it, bi, rfl, hw, hin, ?_, hd, ?_, ?_⟩))
        · show (State.writeIdle s.afterTurn a.wdata (slotAt s.cfg (portAddr a.addr))).respond false none = _
          rw [he]
          rfl
        · intro h1 h2
          rw [ho h1] at h2
          cases h2
        · intro h1
          have : s.busy = false := hb1
          rw [this] at h1
          cases h1
      · refine .inr (.inr (.inr (.inl ⟨a, k, i, (State.not_busy_iff s).1 hb1, rfl, hw, hin, hsl, ?_⟩)))
        show (State.writeIdle s.afterTurn a.wdata (slotAt s.cfg (portAddr a.addr))).respond false none = _
        rw [he]
    · have hp : s.phase = .idle := (State.not_busy_iff s).1 hb1
      obtain ⟨c, r, f, ha, hf⟩ := acceptWord_idle (s := s.afterTurn.respond false none) a.wdata hp
      simp only at h
      have hok := fun hx => acceptWord_ok (s := s.afterTurn.respond false none) (r := r) a.wdata hp hx ha rfl
      rw [ha] at h
      cases h
      exact .inr (.inr (.inr (.inr (.inl ⟨c, r, f, hp, rfl, hf, hok⟩))))

/-! ## Runs of several steps -/

section Runs

variable {M : Host.Core} {s t : M.State}

/-- A run of one step more. -/
theorem run_succ (h : M.step s = .next t) (n : Nat) : M.run (n + 1) s = M.run n t := by
  simp only [Host.Core.run, h]

/-- A run that goes on from where another has come to. -/
theorem run_add (n : Nat) : ∀ (m : Nat) (s : M.State), M.run m s = .next t → M.run (m + n) s = M.run n t := by
  intro m
  induction m with
  | zero =>
    intro s h
    have : s = t := Host.Outcome.next.inj h
    rw [this, Nat.zero_add]
  | succ m ih =>
    intro s h
    rw [Nat.add_right_comm]
    simp only [Host.Core.run] at h ⊢
    cases hs : M.step s with
    | next u => rw [hs] at h; exact ih u h
    | fault r => rw [hs] at h; cases h
    | refused r => rw [hs] at h; cases h

/-- A run that comes back to where it began does so for ever. -/
theorem run_period {k : Nat} (h : M.run k s = .next s) : ∀ n, M.run (k * n) s = .next s := by
  intro n
  induction n with
  | zero => rfl
  | succ n ih => rw [Nat.mul_succ, run_add k (k * n) s ih, h]

end Runs

end Sys2Proof.Machine
end

