-- ==== Sys2Proof/Tests/Slice0.lean ====
section
/-! SUPPORT. Small tests with results from spec/30_encoding.md and spec/95_test_vectors.md, and a witness
for the hypotheses of every statement of Obligations.lean that has some. -/

open Sys2Proof Sys2Proof.Machine

namespace Sys2Proof.Tests

/-! ## Well-formedness: an ill-formed word for each check of WellFormed.lean (rules R71 to R77) -/

theorem test_wordLegal_accepts :
    wordLegal 0x00210301 = true ∧ wordLegal 0x00005002 = true ∧ wordLegal 0x02000503 = true ∧
    wordLegal 0x00000004 = true := by decide

/-- OP is 0x0 or 0x5 to 0xF (rule R77). -/
theorem test_opOk_refuses :
    ∀ op : BitVec 4, op = 0 ∨ 5 ≤ op.toNat → wordLegal (0#28 ++ op) = false := by decide

/-- Each bit of Z0 to Z5 in turn, set in a legal word (rule R76). -/
theorem test_zerosOk_refuses :
    ∀ j ∈ [4, 5, 6, 7, 11, 15, 19, 23, 26, 27, 28, 29, 30, 31],
      (cmdFields (0x00210301#32 ||| 1#32 <<< j)).zerosOk = false ∧
      wordLegal (0x00210301#32 ||| 1#32 <<< j) = false := by decide

/-- Each bit of the fields that a command does not use (the table of rule R76). -/
theorem test_unusedOk_refuses :
    (∀ j ∈ [24, 25], wordLegal (0x00000001#32 ||| 1#32 <<< j) = false) ∧
    (∀ j ∈ [8, 9, 10, 16, 17, 18, 20, 21, 22, 24, 25], wordLegal (0x00000002#32 ||| 1#32 <<< j) = false) ∧
    (∀ j ∈ [12, 13, 14, 16, 17, 18, 20, 21, 22], wordLegal (0x00000003#32 ||| 1#32 <<< j) = false) ∧
    (∀ j ∈ [8, 9, 10, 12, 13, 14, 16, 17, 18, 20, 21, 22, 24, 25],
      wordLegal (0x00000004#32 ||| 1#32 <<< j) = false) := by decide

/-- BSEL = 3 (rule R74). -/
theorem test_bselOk_refuses :
    (cmdFields 0x03000103).bselOk = false ∧ wordLegal 0x03000103 = false := by decide

/-! ## Decoding: words written out bit by bit from the patterns of rule R78 -/

/-- `000000000ccc0bbb0aaa0ddd00000001` with c = 6, b = 5, a = 2, d = 3. -/
theorem test_decode_powmod :
    decode 0b00000000011001010010001100000001#32 = .cmd (.powmod 3 2 5 6) := by decide

/-- `00000000000000000aaa000000000010` with a = 5. -/
theorem test_decode_isprime : decode 0b00000000000000000101000000000010#32 = .cmd (.isprime 5) := by decide

/-- `000000ss0000000000000ddd00000011` with d = 6 and s = 0, 1, 2; s = 3 is illegal. -/
theorem test_decode_primegen :
    decode 0b00000000000000000000011000000011#32 = .cmd (.primegen 6 .bits) ∧
    decode 0b00000001000000000000011000000011#32 = .cmd (.primegen 6 .pbits) ∧
    decode 0b00000010000000000000011000000011#32 = .cmd (.primegen 6 .qbits) ∧
    decode 0b00000011000000000000011000000011#32 = .illegal := by decide

/-- `00000000000000000000000000000100`. -/
theorem test_decode_split : decode 0b00000000000000000000000000000100#32 = .cmd .split := by decide

/-- Byte lane 0 carries bits [7:0] (rule R56): the lanes 01 03 21 00 are the word 0x00210301. -/
theorem test_decode_lanes :
    decodeLanes 0x01 0x03 0x21 0x00 = .cmd (.powmod 3 0 1 2) ∧
    decodeTableWord 32 0x00210301 = some (.powmod 3 0 1 2) ∧ decodeTableWord 32 0x03000103 = none := by decide

/-! ## Helpers -/

/-- Reset, with a command at work and a state of the random-source port. -/
def busyWith (r : Running) (d : Option Draw) (a : Option Nat) : State :=
  { State.reset with phase := .busy r, draw := d, ack := a }

/-- Reset, in the configuration with the other setting of a parameter. -/
def busyIn (c : Config) (r : Running) (d : Option Draw) (a : Option Nat) : State :=
  { State.resetOf c with phase := .busy r, draw := d, ack := a }

/-- The next state, or reset where there is none. -/
def after : Host.Outcome State Fault Refusal → State
  | .next t => t
  | .fault _ => State.reset
  | .refused _ => State.reset

/-- The outcome is a next state. -/
def goesOn : Host.Outcome State Fault Refusal → Bool
  | .next _ => true
  | .fault _ => false
  | .refused _ => false

/-- The configuration with ENGINE_BASE = 0x4000 and one limb. -/
def cfgOne : Config := { Config.default with nlimbs := 1, engineBase := 0x4000 }

/-- The configuration with 128 limbs. -/
def cfgMax : Config := { Config.default with nlimbs := 128 }

def powAt (b e m : Nat) : Running := .powmod 3 0 1 2 { b := b, e := e, m := m, loop := none }

def primeAt (n k : Nat) : Running := .isprime 0 { n := n, k := k, s := 0, r := 0, round := 0, pt := .start }

def roundAt (n k s r round : Nat) : Running :=
  .isprime 0 { n := n, k := k, s := s, r := r, round := round, pt := .round }

def genAt (bits k : Nat) (pt : GenPoint) : Running := .primegen 2 .bits { bits := bits, k := k, pt := pt }

def genTest (bits k n s r round : Nat) : Running :=
  genAt bits k (.test { n := n, k := k, s := s, r := r, round := round, pt := .round })

/-! ## One step of each command, against the spec's vectors -/

/-- Vectors V1 and V5. -/
theorem test_powmod :
    (after (exec (.powmod 3 0 1 2) (busyWith (powAt 4 13 497) none none))).xval 3 = 445 ∧
    (after (exec (.powmod 3 0 1 2) (busyWith (powAt 5 0 1) none none))).xval 3 = 1 := by decide

/-- Vector V10: a base over two limbs, and the error of vector V9. -/
theorem test_powmod_limbs :
    (after (exec (.powmod 3 0 1 2) (busyWith (powAt 0x100000000 2 0xFFFFFFFFFFFFFFFF) none none))).xval 3 = 1 ∧
    (after (exec (.powmod 3 0 1 2) (busyWith (powAt 5 3 0) none none))).errcode = .divzero := by decide

/-- Vectors M16 (the strong liar 7 of 25) and M4. -/
theorem test_isprime :
    (after (exec (.isprime 0) (busyWith (roundAt 25 1 3 3 1) (some (.below 21)) (some 5)))).prime = true ∧
    (after (exec (.isprime 0) (busyWith (roundAt 9 1 3 1 1) (some (.below 5)) (some 0)))).prime = false := by
  decide

/-- Vector M10 under both settings of MR_EARLY_EXIT. -/
theorem test_isprime_early_exit :
    (after (exec (.isprime 0) (busyWith (roundAt 17 1 4 1 1) (some (.below 13)) (some 0)))).prime = true ∧
    (after (exec (.isprime 0) (busyIn { Config.default with mrEarlyExit := false } (roundAt 17 1 4 1 1)
      (some (.below 13)) (some 0)))).prime = false := by decide

/-- Vectors S1 and the overflow corner of rule R135. -/
theorem test_split :
    (let t := after (exec .split (busyWith (.split { nbits := 1024, rr := none }) (some (.below 512)) (some 100)))
     t.pbits = 356 ∧ t.qbits = 668) ∧
    (let t := after (exec .split (busyWith (.split { nbits := 0xFFFFFFFF, rr := none })
        (some (.below 0x7FFFFFFF)) (some 0x7FFFFFFE)))
     t.pbits = 0xBFFFFFFD ∧ t.qbits = 0x3FFFFFFF) := by decide

/-- The example of rule R140: candidate 9 is rejected in round 1 by the answer 0, and candidate 11 is
accepted in round 2 by the answer 3. -/
theorem test_primegen :
    (after (exec (.primegen 2 .bits) (busyWith (genTest 3 2 9 3 1 1) (some (.below 5)) (some 0)))).draw =
      some (.bits 4) ∧
    (after (exec (.primegen 2 .bits) (busyWith (genTest 3 2 11 1 5 2) (some (.below 7)) (some 3)))).xval 2 =
      11 := by decide

/-- The first step after reset runs the word placed there (rules R92, R111, R144, R136). -/
theorem test_first_steps :
    (after (step (State.reset.withFetchWord 32 0x00210301))).errcode = .divzero ∧
    (after (step (State.reset.withFetchWord 32 0x00000002))).done = true ∧
    (after (step (State.reset.withFetchWord 32 0x00000203))).draw = some (.bits 1) ∧
    (after (step (State.reset.withFetchWord 32 0x00000004))).errcode = .rngBound := by decide

/-! ## Witnesses of the statements' hypotheses -/

theorem witness_DecodedWordsEncodeBack :
    decode 0x00777701 = .cmd (.powmod 7 7 7 7) ∧ decode 0x02000703 = .cmd (.primegen 7 .qbits) := by decide

/-- Also of AccessesOutside, ScalarReads and the other statements on configurations: 1 and 128 limbs. -/
theorem witness_configurations : Config.default.valid = true ∧ cfgOne.valid = true ∧ cfgMax.valid = true := by
  decide

theorem witness_ResetAbandonsTheCommand :
    (busyWith (roundAt 25 1 3 3 1) (some (.below 21)) none).cfg.valid = true := by decide

theorem witness_BadTransfersEndWithErr :
    cfgOne.valid = true ∧ inWindow cfgOne 0x4000 = true ∧ inWindow cfgOne 0x5FFF = true ∧
    (0x7#4 ≠ 0xF#4 ∧ 0x4000 % 4 = 0) ∧ (0xF#4 = 0xF#4 ∧ 0x5FFF % 4 ≠ 0) := by decide

theorem witness_AccessesOutsideTheWindowDoNothing :
    cfgOne.valid = true ∧ 0x3FFF < cfgOne.engineBase ∧ cfgOne.engineBase + 0x2000 ≤ 0x6000 := by decide

theorem witness_ScalarReadsReturnTheRegister :
    let s := busyWith (powAt 4 13 497) none none
    s.cfg.valid = true ∧
    (0x00C, s.statusWord) ∈ [(0x000, 0x4E544531#32), (0x004, cfgWord s.cfg), (0x008, s.ctrlWord),
      (0x00C, s.statusWord), (0x010, s.cmdLast), (0x014, s.iters), (0x018, s.bits), (0x01C, s.pbits),
      (0x020, s.qbits)] := by decide

/-- The last limb, in both phases. -/
theorem witness_LimbReads :
    State.reset.cfg.valid = true ∧ 1 < State.reset.cfg.nlimbs ∧ State.reset.phase = .idle ∧
    (busyWith (powAt 4 13 497) none none).phase ≠ .idle := by decide

theorem witness_WritesWhileIdle :
    State.reset.cfg.valid = true ∧ State.reset.phase = .idle ∧ 1 < State.reset.cfg.nlimbs := by decide

theorem witness_WritesWhileBusy :
    (busyWith (powAt 4 13 497) none none).cfg.valid = true ∧
    (busyWith (powAt 4 13 497) none none).busy = true := by decide

/-- The ends of the reserved ranges of rules R39 and R52. -/
theorem witness_ReservedOffsets :
    ReservedOffset Config.default 0x024 ∧ ReservedOffset Config.default 0xFFC ∧
    ReservedOffset Config.default 0x1008 ∧ ReservedOffset Config.default 0x1FFC := by
  refine ⟨.inl (by decide), .inl (by decide), .inr ⟨0, 2, ?_⟩, .inr ⟨7, 127, ?_⟩⟩ <;> decide

/-- No offset has two meanings: the last scalar register and the first limb are not reserved. -/
theorem witness_ReservedOffsets_bounds :
    slotAt Config.default 0x020 = .qbits ∧ slotAt Config.default 0x024 = .reserved ∧
    slotAt Config.default 0xFFC = .reserved ∧ slotAt Config.default 0x1004 = .limb 0 1 ∧
    slotAt Config.default 0x1008 = .reserved ∧ slotAt Config.default 0x1E04 = .limb 7 1 ∧
    slotAt Config.default 0x1FFC = .reserved ∧ slotAt cfgMax 0x1FFC = .limb 7 127 := by decide

theorem witness_LimbWrittenThenRead :
    State.reset.cfg.valid = true ∧ State.reset.phase = .idle ∧
    (∀ k, (State.reset.xreg k).length = State.reset.cfg.nlimbs) ∧ 1 < State.reset.cfg.nlimbs := by decide

theorem witness_StepRunsTheDecodedCommand :
    let s := busyWith (powAt 4 13 497) none none
    s.cfg.valid = true ∧ s.phase = .busy (powAt 4 13 497) ∧
    (powAt 4 13 497).command = some (.powmod 3 0 1 2) ∧ s.script = [] ∧ s.cycle = [] ∧
    ({ s with script := [.engine] } : State).script = .engine :: [] ∧
    ({ s with cycle := [.engine] } : State).script = [] ∧
    ({ s with cycle := [.engine] } : State).cycle = .engine :: [] := by decide

theorem witness_StepAcceptsTheCommandWritten :
    State.reset.cfg.valid = true ∧ State.reset.phase = .idle ∧ decode 0x00000004 = .cmd .split := by decide

theorem witness_AcceptanceTakesTheSnapshot : State.reset.phase = .idle := by decide

theorem witness_IllegalWordCompletesAsIllegal :
    State.reset.cfg.valid = true ∧ decode 0x03000103 = .illegal ∧ State.reset.phase = .idle ∧
    (busyWith (powAt 4 13 497) none none).busy = true := by decide

theorem witness_HostAccessesKeepTheRunningCommand :
    (busyWith (roundAt 25 1 3 3 1) (some (.below 21)) none).cfg.valid = true ∧
    (busyWith (roundAt 25 1 3 3 1) (some (.below 21)) none).busy = true := by decide

/-- Another command, and the same command on another register. -/
theorem witness_CommandsIssuedWhileBusyAreDropped :
    (busyWith (powAt 4 13 497) none none).phase = .busy (powAt 4 13 497) ∧
    (powAt 4 13 497).command ≠ some .split ∧ (powAt 4 13 497).command ≠ some (.powmod 2 0 1 2) := by decide

/-- A full-width modulus, with an exponent of 0 and of 13. -/
theorem witness_PowmodWritesThePower :
    ∀ e ∈ [0, 13],
      let w : PowWork := { b := 5, e := e, m := 2 ^ 64 - 1, loop := none }
      let s := busyWith (.powmod 3 0 1 2 w) none none
      s.phase = .busy (.powmod 3 0 1 2 w) ∧ s.draw = none ∧ w.loop = none ∧ w.m ≠ 0 ∧
      w.m < 2 ^ s.cfg.width ∧ 1 ≤ s.cfg.nlimbs := by decide

/-- The aliased operands of rule R97: X1 = 3, X2 = 7. -/
def loaded : State := (State.reset.writeX 1 3).writeX 2 7

theorem witness_PowmodFromCommandWriteToResult :
    loaded.cfg.valid = true ∧ (∀ k, (loaded.xreg k).length = loaded.cfg.nlimbs) ∧ loaded.phase = .idle ∧
    loaded.draw = none ∧ loaded.xval 2 ≠ 0 := by decide

theorem witness_PowmodModulusZero :
    let w : PowWork := { b := 5, e := 0, m := 0, loop := none }
    let s := busyWith (.powmod 3 0 1 2 w) none none
    s.phase = .busy (.powmod 3 0 1 2 w) ∧ s.draw = none ∧ w.loop = none ∧ w.m = 0 := by decide

/-- The first and the last count. -/
theorem witness_PowmodLoopRunsBitlengthTimes :
    let w : PowWork := { b := 4, e := 13, m := 497, loop := none }
    w.loop = none ∧ w.m ≠ 0 ∧ 0 ≤ bitLength w.e ∧ 4 ≤ bitLength w.e := by decide

theorem witness_IsprimeEarlyOutcomes :
    ∀ n ∈ [0, 1, 2, 4], (busyWith (primeAt n 1) none none).phase = .busy (primeAt n 1) ∧
      (busyWith (primeAt n 1) none none).draw = none ∧ (n < 2 ∨ n = 2 ∨ n % 2 = 0) := by decide

theorem witness_IsprimeWithZeroRounds :
    ∀ n ∈ [3, 9], (busyWith (primeAt n 0) none none).phase = .busy (primeAt n 0) ∧
      (busyWith (primeAt n 0) none none).draw = none ∧ 3 ≤ n ∧ n % 2 = 1 := by decide

/-- K = 0 and K = 1. -/
theorem witness_IsprimeOfThreeHasNoWitness :
    ∀ k ∈ [0, 1], (busyWith (primeAt 3 k) none none).phase = .busy (primeAt 3 k) ∧
      (busyWith (primeAt 3 k) none none).draw = none ∧ (1 ≤ k ∨ k = 0) := by decide

theorem witness_IsprimeRequestsTheFirstWitness :
    (busyWith (primeAt 5 1) none none).phase = .busy (primeAt 5 1) ∧
    (busyWith (primeAt 5 1) none none).draw = none ∧ 5 ≤ 5 ∧ 5 % 2 = 1 ∧ 1 ≤ 1 := by decide

/-- The last lawful answer, in the last round, in an earlier one, and in one that fails. -/
theorem witness_IsprimeRoundOutcome :
    let s := busyWith (roundAt 17 2 4 1 1) (some (.below 13)) (some 12)
    s.phase = .busy (roundAt 17 2 4 1 1) ∧ 1 ≤ 2 ∧ s.ack = some 12 ∧
    s.draw = some (.below (17 - s.cfg.mrBoundOffset.value)) ∧ 12 < 17 - s.cfg.mrBoundOffset.value ∧
    roundPasses true 17 4 1 (12 + 2) = true ∧ roundPasses true 25 3 3 (5 + 2) = true ∧
    roundPasses true 9 3 1 (0 + 2) = false := by decide

/-- A state with the port, the running command and the registers as the invariant asks. -/
theorem busyWith_inv {r : Running} {d : Option Draw} {a : Option Nat}
    (hd : ∀ x, d = some x → x.legal Config.default = true) (ha : d = none → a = none)
    (hr : r.Ok Config.default d) : (busyWith r d a).Inv :=
  { cfgValid := (by decide : Config.default.valid = true)
    xLimbs := by
      show ∀ k, (State.reset.xreg k).length = State.reset.cfg.nlimbs
      decide
    drawLegal := hd
    idleNoDraw := fun h => by cases h
    ackOfDraw := ha
    runningOk := fun r' h => by cases h; exact hr }

/-- ISPRIME of 17, in its only round, with the witness 2 + 0 drawn. -/
def seventeen : State := busyWith (roundAt 17 1 4 1 1) (some (.below 13)) (some 0)

theorem seventeen_inv : seventeen.Inv := by
  refine busyWith_inv (fun x h => ?_) (fun h => by cases h) ⟨⟨?_, ?_, ?_⟩, .inr ⟨rfl, ?_⟩⟩
  · cases h; decide
  · decide
  · decide
  · show MrWork.Decomposed _ ∧ _
    unfold MrWork.Decomposed
    decide
  · decide

theorem witness_PrimesAreNeverReportedComposite :
    seventeen.Inv ∧ seventeen.cfg.mrEarlyExit = true ∧ seventeen.phase = .busy (roundAt 17 1 4 1 1) ∧
    Nat.Prime 17 ∧ ∃ t, exec (.isprime 0) seventeen = .next t ∧ t.phase = .idle ∧ t.errcode = .noError :=
  ⟨seventeen_inv, by decide, by decide, by norm_num, _, rfl, by decide, by decide⟩

theorem witness_SmallCompositesAreReportedComposite :
    ∀ n ∈ [4, 15, 21], (busyWith (primeAt n 1) none none).phase = .busy (primeAt n 1) ∧
      (busyWith (primeAt n 1) none none).draw = none ∧ n ∈ [4, 15, 21] ∧ 1 ≤ 1 := by decide

def splitAt (nbits : Nat) : Running := .split { nbits := nbits, rr := none }

theorem witness_SplitRequestsItsDraw :
    (busyWith (splitAt 2) none none).phase = .busy (splitAt 2) ∧
    (busyWith (splitAt 2) none none).draw = none ∧ 2 ≤ 2 := by decide

/-- The least and the greatest bit count, each with its greatest lawful answer. -/
theorem witness_SplitWritesPbitsAndQbits :
    ∀ p ∈ [(2, 0), (0xFFFFFFFF, 0x7FFFFFFE)],
      let s := busyWith (splitAt p.1) (some (.below (p.1 / 2))) (some p.2)
      s.phase = .busy (splitAt p.1) ∧ 2 ≤ p.1 ∧ p.1 < 2 ^ 32 ∧ s.draw = some (.below (p.1 / 2)) ∧
      s.ack = some p.2 ∧ p.2 < p.1 / 2 := by decide

theorem witness_SplitOfFewerThanTwoBits :
    (busyWith (splitAt 1) none none).phase = .busy (splitAt 1) ∧
    (busyWith (splitAt 1) none none).draw = none ∧ 1 < 2 := by decide

/-- bits = W and the greatest 32-bit value. -/
theorem witness_PrimegenOutOfRange :
    ∀ b ∈ [64, 0xFFFFFFFF], (busyWith (genAt b 1 .check) none none).phase = .busy (genAt b 1 .check) ∧
      (busyWith (genAt b 1 .check) none none).draw = none ∧ Config.default.width ≤ b := by decide

/-- bits = 0 and bits = W - 1. -/
theorem witness_PrimegenRequestsACandidate :
    ∀ b ∈ [0, 63], (busyWith (genAt b 1 .check) none none).phase = .busy (genAt b 1 .check) ∧
      (busyWith (genAt b 1 .check) none none).draw = none ∧ b < Config.default.width := by decide

/-- For each clause a bit count, a round count and a lawful candidate: 1, an even one, 2, an odd one at
K = 0, 3 at K = 1 and 5 at K = 1. -/
theorem witness_PrimegenCandidateOutcome :
    (∀ p ∈ [(0, 1, 1), (2, 1, 4), (1, 1, 2), (1, 0, 3), (1, 1, 3), (2, 1, 5)],
      let s := busyWith (genAt p.1 p.2.1 .draw) (some (.bits (p.1 + 1))) (some p.2.2)
      s.phase = .busy (genAt p.1 p.2.1 .draw) ∧ s.draw = some (.bits (p.1 + 1)) ∧ s.ack = some p.2.2 ∧
      2 ^ p.1 ≤ p.2.2 ∧ p.2.2 < 2 ^ (p.1 + 1)) ∧
    (∀ v < 64, ∀ k < 3, ∀ b < 6, 2 ^ b ≤ v ∧ v < 2 ^ (b + 1) →
      [decide (v < 2 ∨ (v % 2 = 0 ∧ v ≠ 2)), decide (v = 2 ∨ (k = 0 ∧ 3 ≤ v ∧ v % 2 = 1)),
        decide (v = 3 ∧ 1 ≤ k), decide (5 ≤ v ∧ v % 2 = 1 ∧ 1 ≤ k)].count true = 1) := by decide

theorem witness_PrimegenRoundOutcome :
    let s := busyWith (genTest 3 2 11 1 5 2) (some (.below 7)) (some 6)
    s.phase = .busy (genTest 3 2 11 1 5 2) ∧ 2 ≤ 2 ∧
    s.draw = some (.below (11 - s.cfg.mrBoundOffset.value)) ∧ s.ack = some 6 ∧
    6 < 11 - s.cfg.mrBoundOffset.value := by decide

/-- PRIMEGEN of two-bit numbers, with the candidate 2. -/
def genTwo : State := busyWith (genAt 1 1 .draw) (some (.bits 2)) (some 2)

theorem genTwo_inv : genTwo.Inv := by
  refine busyWith_inv (fun x h => ?_) (fun h => by cases h) ⟨?_, ?_, ?_, .inr rfl⟩
  · cases h; decide
  · decide
  · decide
  · decide

theorem witness_PrimegenResultHasBitsPlusOneBits :
    genTwo.Inv ∧ genTwo.phase = .busy (genAt 1 1 .draw) ∧
    ∃ t, exec (.primegen 2 .bits) genTwo = .next t ∧ t.phase = .idle ∧ t.errcode = .noError :=
  ⟨genTwo_inv, by decide, _, rfl, by decide, by decide⟩

/-- PRIMEGEN of 0 bits on an IDLE engine. -/
theorem witness_PrimegenOfZeroBitsNeverCompletes_accepted :
    State.reset.phase = .idle ∧ State.reset.draw = none ∧ State.reset.ack = none ∧
    State.reset.bitsOf .bits = 0 ∧ State.reset.bitsOf .pbits = 0 ∧ State.reset.bitsOf .qbits = 0 := by decide

/-- PRIMEGEN of 0 bits before its check, and with the lawful answer 1 to come, first and again. -/
theorem witness_PrimegenOfZeroBitsNeverCompletes :
    let s := busyWith (genAt 0 1 .check) none none
    let u : State := { busyWith (genAt 0 1 .draw) (some (.bits 1)) none with cycle := [.answer 1, .engine] }
    (s.cfg.valid = true ∧ ZeroBitsHang s ∧ s.turn.1 ≠ .reset ∧ ∀ v, s.turn.1 = .answer v → v = 1) ∧
    (u.cfg.valid = true ∧ ZeroBitsHang u ∧ u.turn.1 ≠ .reset ∧ ∀ v, u.turn.1 = .answer v → v = 1) := by
  refine ⟨⟨by decide, ⟨2, .bits, _, rfl, rfl, .inl rfl, .inl rfl, ?_⟩, by decide, ?_⟩, by decide,
    ⟨2, .bits, _, rfl, rfl, .inr rfl, .inr rfl, ?_⟩, by decide, ?_⟩
  · intro v h; cases h
  · intro v h; cases h
  · intro v h; cases h
  · intro v h; cases h; rfl

/-- PRIMEGEN of `bits` + 1 bits that waits for a candidate, with the moves `es` again and again. -/
def genEndless (bits k : Nat) (es : List Event) : State :=
  { busyWith (genAt bits k .draw) (some (.bits (bits + 1))) none with cycle := es }

/-- The candidate 1 of one bit, the even candidate 4, and the candidate 9, which the witness 2 proves
composite (the example of rule R140). -/
theorem witness_EndlessRejectedCandidatesHang :
    (∀ p ∈ [(0, 1), (2, 4)],
      let s := genEndless p.1 1 [.answer p.2, .engine]
      s.cfg.valid = true ∧ s.phase = .busy (genAt p.1 1 .draw) ∧ s.draw = some (.bits (p.1 + 1)) ∧
      s.ack = none ∧ s.script = [] ∧ 2 ^ p.1 ≤ p.2 ∧ p.2 < 2 ^ (p.1 + 1) ∧
      (p.2 < 2 ∨ (p.2 % 2 = 0 ∧ p.2 ≠ 2)) ∧ s.cycle = [.answer p.2, .engine]) ∧
    let s := genEndless 3 1 [.answer 9, .engine, .answer 0, .engine]
    s.cfg.valid = true ∧ s.phase = .busy (genAt 3 1 .draw) ∧ s.draw = some (.bits (3 + 1)) ∧
    s.ack = none ∧ s.script = [] ∧ 2 ^ 3 ≤ 9 ∧ 9 < 2 ^ (3 + 1) ∧
    5 ≤ 9 ∧ 1 ≤ 1 ∧ 2 ^ 3 * 1 = 9 - 1 ∧ 1 % 2 = 1 ∧ 1 ≤ 3 ∧ 0 < 9 - s.cfg.mrBoundOffset.value ∧
    roundPasses s.cfg.mrEarlyExit 9 3 1 (0 + 2) = false ∧
    s.cycle = [.answer 9, .engine, .answer 0, .engine] := by decide

/-- A request in flight, none, and one that has its answer; the ends of the two laws, the greatest request
of each kind among them. -/
theorem witness_RandomSourceAnswersTheRequest :
    (let s := busyWith (roundAt 25 1 3 3 1) (some (.below 21)) none
     s.cfg.valid = true ∧ s.inFlight = some (.below 21) ∧ (Draw.below 21).legal s.cfg = true) ∧
    State.reset.cfg.valid = true ∧ State.reset.inFlight = none ∧
    (busyWith (roundAt 25 1 3 3 1) (some (.below 21)) (some 5)).inFlight = none ∧
    (Draw.below 1).lawful 0 = true ∧ (Draw.below 21).lawful 20 = true ∧
    (Draw.bits 1).lawful 1 = true ∧ (Draw.bits 4).lawful 8 = true ∧ (Draw.bits 4).lawful 15 = true ∧
    (Draw.bits 64).legal Config.default = true ∧ (Draw.bits 64).lawful (2 ^ 64 - 1) = true := by decide

/-- An answer on the bound, and one of too many bits. -/
theorem witness_LawBreakingAnswersEndTheCommand :
    (let s := busyWith (roundAt 21 1 2 5 1) (some (.below 17)) (some 17)
     s.phase = .busy (roundAt 21 1 2 5 1) ∧ (roundAt 21 1 2 5 1).command = some (.isprime 0) ∧
     s.draw = some (.below 17) ∧ s.ack = some 17 ∧ (Draw.below 17).lawful 17 = false) ∧
    (let s := busyWith (genAt 3 1 .draw) (some (.bits 4)) (some 16)
     s.phase = .busy (genAt 3 1 .draw) ∧ (genAt 3 1 .draw).command = some (.primegen 2 .bits) ∧
     s.draw = some (.bits 4) ∧ s.ack = some 16 ∧ (Draw.bits 4).lawful 16 = false) := by decide

/-- A completion of every command, and one with an error. -/
theorem witness_CompletionsWriteOnlyTheirMatrix :
    (∃ t, exec (.powmod 3 0 1 2) (busyWith (powAt 4 13 497) none none) = .next t ∧ t.phase = .idle ∧
      t.errcode = .noError) ∧
    (∃ t, exec (.isprime 0) (busyWith (primeAt 2 1) none none) = .next t ∧ t.phase = .idle ∧
      t.errcode = .noError) ∧
    (∃ t, exec (.primegen 2 .bits) genTwo = .next t ∧ t.phase = .idle ∧ t.errcode = .noError) ∧
    (∃ t, exec .split (busyWith (splitAt 2) (some (.below 1)) (some 0)) = .next t ∧ t.phase = .idle ∧
      t.errcode = .noError) ∧
    ∃ t, exec (.powmod 3 0 1 2) (busyWith (powAt 4 13 0) none none) = .next t ∧ t.phase = .idle ∧
      t.errcode ≠ .noError :=
  ⟨⟨_, rfl, by decide, by decide⟩, ⟨_, rfl, by decide, by decide⟩, ⟨_, rfl, by decide, by decide⟩,
    ⟨_, rfl, by decide, by decide⟩, ⟨_, rfl, by decide, by decide⟩⟩

theorem witness_UnfinishedCommandsWriteNothing :
    (∃ t, exec (.isprime 0) (busyWith (primeAt 5 1) none none) = .next t ∧ t.busy = true) ∧
    ∃ t, exec (.primegen 2 .bits) (busyWith (genAt 3 1 .check) none none) = .next t ∧ t.busy = true :=
  ⟨⟨_, rfl, by decide⟩, ⟨_, rfl, by decide⟩⟩

/-- Also of EveryStepKeepsTheInvariant, below. -/
theorem witness_ErrorCodesOfEachCommand :
    seventeen.Inv ∧ seventeen.phase = .busy (roundAt 17 1 4 1 1) ∧
    ∃ t, engineStep seventeen = .next t ∧ t.phase = .idle :=
  ⟨seventeen_inv, by decide, _, rfl, by decide⟩

/-- An illegal word and a command that ends with an error, from states that meet the invariant. -/
theorem witness_ErrorCodesOfEachCommand_errors :
    ((busyWith .illegal none none).Inv ∧
      ∃ t, engineStep (busyWith .illegal none none) = .next t ∧ t.errcode = .illegal) ∧
    (busyWith (splitAt 1) none none).Inv ∧
      ∃ t, engineStep (busyWith (splitAt 1) none none) = .next t ∧ t.errcode = .rngBound :=
  ⟨⟨busyWith_inv (fun x h => by cases h) (fun _ => rfl) rfl, _, rfl, by decide⟩,
    busyWith_inv (fun x h => by cases h) (fun _ => rfl) ⟨by decide, .inl rfl⟩, _, rfl, by decide⟩

theorem witness_NoCommandStopsTheMachine :
    State.reset.cfg.valid = true ∧ goesOn (exec .split State.reset) = true ∧ goesOn (step State.reset) = true := by
  decide

theorem witness_DrawInFlightHoldsTheEngine :
    let s := busyWith (roundAt 25 1 3 3 1) (some (.below 21)) none
    s.cfg.valid = true ∧ s.phase = .busy (roundAt 25 1 3 3 1) ∧
    (roundAt 25 1 3 3 1).command = some (.isprime 0) ∧ s.draw = some (.below 21) ∧ s.ack = none ∧
    s.script = [] ∧ s.cycle = [] ∧ ({ s with cycle := [.engine] } : State).script = [] ∧
    ({ s with cycle := [.engine] } : State).cycle = .engine :: [] := by decide

/-- PRIME set by an ISPRIME, and cleared by reset. -/
theorem witness_PrimeChangesOnlyByIsprime :
    (∃ t, step seventeen = .next t ∧ t.prime ≠ seventeen.prime) ∧
    let s : State := { State.reset with prime := true, script := [.reset] }
    ∃ t, step s = .next t ∧ t.prime ≠ s.prime :=
  ⟨⟨_, rfl, by decide⟩, _, rfl, by decide⟩

/-- OVR set by a dropped write, and DONE by a completion. -/
theorem witness_OvrAndDoneAreSetOnlyByTheirCause :
    (let s : State := { seventeen with script := [hostWrite Config.default 0x014 1] }
     goesOn (step s) = true ∧ s.ovr = false ∧ (after (step s)).ovr = true) ∧
    goesOn (step seventeen) = true ∧ seventeen.done = false ∧ (after (step seventeen)).done = true := by decide

theorem witness_InterruptIsTheLevelOfDoneAndIe :
    (2#32).getLsbD 1 = true ∧ (0#32).getLsbD 0 = false ∧ (1#32).getLsbD 0 = true := by decide

theorem witness_ConfigurationIsCheckedAndFixed :
    (State.resetOf { Config.default with nlimbs := 0 }).cfg.nlimbs < 1 ∧
    128 < (State.resetOf { Config.default with nlimbs := 129 }).cfg.nlimbs ∧
    goesOn (step (State.resetOf { Config.default with nlimbs := 129 })) = false ∧
    goesOn (step State.reset) = true := by decide

/-- X changed by a host write, by a completion and by reset. The value after reset is a free word, but the
written mark of the limbs is not. -/
theorem witness_XChangesOnlyByItsWriters :
    (let s : State := { State.reset with script := [hostWrite Config.default 0x1000 7] }
     goesOn (step s) = true ∧ (after (step s)).x ≠ s.x) ∧
    (goesOn (step genTwo) = true ∧ (after (step genTwo)).x ≠ genTwo.x) ∧
    let s : State := { loaded with script := [.reset] }
    goesOn (step s) = true ∧ (after (step s)).xWritten 1 ≠ s.xWritten 1 := by decide

theorem witness_RecordedFaultIsNeverCleared :
    let s : State := { State.reset with recorded := some .unwrittenRead, script := [.reset] }
    goesOn (step s) = true ∧ s.recorded = some .unwrittenRead := by decide

/-- A final state with nothing to come and one with moves of the other agents to come; states that are not
final, for each reason. -/
theorem witness_FinalStatesRest :
    State.reset.cfg.valid = true ∧ State.reset.final = true ∧
    State.reset.script = [] ∧ State.reset.cycle = [] ∧
    ({ State.reset with script := [.answer 7], cycle := [.freeAnswer, .engine] } : State).final = true ∧
    ({ State.reset with script := [hostRead Config.default 0x00C] } : State).final = false ∧
    ({ State.reset with cycle := [.reset] } : State).final = false ∧
    ({ State.reset with recorded := some .unwrittenRead } : State).final = false ∧
    seventeen.busy = true ∧ seventeen.draw ≠ none := by decide

theorem witness_EveryStepKeepsTheInvariant :
    seventeen.Inv ∧ (∃ t, step seventeen = .next t) ∧ genTwo.Inv ∧ ∃ t, step genTwo = .next t :=
  ⟨seventeen_inv, ⟨_, rfl⟩, genTwo_inv, _, rfl⟩

end Sys2Proof.Tests
end

section
/-! The configuration and the reset state: the configuration is checked by every step and changed by none
(rules R6, R13, R169), and the reset state of a configuration of this hardware meets the invariant. -/

namespace Sys2Proof.Machine

variable {s t : State}

/-! ## The configuration -/

/-- The configurations that rule R169 names are none of this hardware. -/
theorem not_valid_of_nlimbs {c : Config} (h : c.nlimbs < 1 ∨ 128 < c.nlimbs) : ¬ c.valid = true := by
  rw [valid_iff]
  omega

theorem step_refused_of_not_valid (h : ¬ s.cfg.valid = true) : step s = .refused .badConfig :=
  if_neg h

/-- No command's results hold a configuration (rule R45). -/
theorem CompletedBy.cfg_eq {i : Instr} (h : CompletedBy s t i) : t.cfg = s.cfg := by
  cases i <;> obtain ⟨_, rfl⟩ := h <;> rfl

theorem engineStep_cfg {r : Running} (hp : s.phase = .busy r) (h : engineStep s = .next t) :
    t.cfg = s.cfg := by
  rcases engineStep_cases hp h with ⟨_, _, _, rfl⟩ | ⟨_, _, hdone⟩ | ⟨_, _, rfl⟩
  · rfl
  · exact hdone.cfg_eq
  · rfl

theorem step_cfg (h : step s = .next t) : t.cfg = s.cfg := by
  rcases step_cases h with ⟨_, _, _, rfl, _⟩ | ⟨_, _, _, rfl⟩ | ⟨_, _, _, _, _, _, _, _, _, rfl, _⟩ |
    ⟨_, _, _, _, _, _, _, _, rfl⟩ | ⟨_, _, _, _, rfl, _⟩ | ⟨_, hp, hengine⟩ | ⟨_, rfl⟩
  case inr.inr.inr.inr.inr.inl => exact engineStep_cfg (s := s.afterTurn) hp hengine
  all_goals rfl

/-- Settles O56: a step checks the configuration before anything else, and no case of `step_cases` writes
it. -/
theorem configurationIsCheckedAndFixed : Obligations.ConfigurationIsCheckedAndFixed :=
  ⟨fun _ h => step_refused_of_not_valid (not_valid_of_nlimbs h), fun _ _ => step_cfg⟩

/-! ## The reset state -/

/-- Rules R26, R28: at reset an X register holds NLIMBS limbs, none of them written. -/
@[simp] theorem State.xreg_resetOf (c : Config) (k : XName) :
    (State.resetOf c).xreg k = List.replicate c.nlimbs { val := 0, written := false } := by
  simp [State.xreg, State.resetOf]

/-- Settles O8: every register holds NLIMBS limbs, and the clauses about a request, an answer and a running
command have nothing to speak of at reset. -/
theorem resetMeetsTheInvariant : Obligations.ResetMeetsTheInvariant := fun c hc =>
  { cfgValid := hc
    xLimbs := fun k => by rw [State.xreg_resetOf, List.length_replicate]; rfl
    drawLegal := fun _ h => nomatch h
    idleNoDraw := fun _ => rfl
    ackOfDraw := fun _ => rfl
    runningOk := fun _ h => nomatch h }

end Sys2Proof.Machine
end

section
/-! The invariant is kept by every step (rules R24, R26, R40, R98, R112, R162): what a state must show to
meet it, and what completions and reset leave of it. -/

namespace Sys2Proof.Machine

variable {s t : State} {i : Instr}

/-! ## Completions -/

/-- A completion without an error: the flags, the phase and the port after it (rules R45, R162). -/
theorem CompletedBy.ends (h : CompletedBy s t i) :
    t.phase = .idle ∧ t.draw = none ∧ t.ack = none ∧ t.errcode = .noError ∧ t.done = true := by
  cases i <;> obtain ⟨_, rfl⟩ := h <;> exact ⟨rfl, rfl, rfl, rfl, rfl⟩

/-- A completion writes NLIMBS limbs of a register or none (rules R26, R95, R153). -/
theorem CompletedBy.xLimbs (h : CompletedBy s t i) (hx : ∀ k, (s.xreg k).length = s.cfg.nlimbs) (k : XName) :
    (t.xreg k).length = t.cfg.nlimbs := by
  have hwrite : ∀ rd v, (((s.writeX rd v).complete).xreg k).length = s.cfg.nlimbs := fun rd v => by
    show ((s.writeX rd v).xreg k).length = _
    rw [State.xreg_writeX]
    split
    · exact length_toLimbs _ _
    · exact hx k
  cases i <;> obtain ⟨v, rfl⟩ := h
  case powmod rd _ _ _ => exact hwrite rd v
  case primegen rd _ => exact hwrite rd v
  case isprime => exact hx k
  case split => exact hx k

/-! ## The registers after reset -/

/-- Rule R190: the limbs of a register after rst_n in a run. -/
theorem State.xreg_resetPulse (s : State) (k : XName) :
    s.resetPulse.xreg k = (List.range s.cfg.nlimbs).map fun i =>
      { val := Config.freeWord (s.fresh + s.cfg.nlimbs * k.toNat + i), written := false } := by
  simp [State.xreg, State.resetPulse, resetX]

/-! ## What the invariant asks of a state -/

/-- The invariant speaks of the configuration, X, the phase and the port only. -/
theorem State.Inv.congr (hI : s.Inv) (hc : t.cfg = s.cfg) (hx : t.x = s.x) (hp : t.phase = s.phase)
    (hd : t.draw = s.draw) (ha : t.draw = none → t.ack = none) : t.Inv where
  cfgValid := hc ▸ hI.cfgValid
  xLimbs k := by rw [State.xreg_congr hx, hc]; exact hI.xLimbs k
  drawLegal := by rw [hd, hc]; exact hI.drawLegal
  idleNoDraw := by rw [hp, hd]; exact hI.idleNoDraw
  ackOfDraw := ha
  runningOk := by rw [hp, hc, hd]; exact hI.runningOk

/-- Rules R43, R162: an IDLE engine without a request has no more to show than its registers. -/
theorem State.Inv.of_idle (hc : t.cfg.valid = true) (hx : ∀ k, (t.xreg k).length = t.cfg.nlimbs)
    (hp : t.phase = .idle) (hd : t.draw = none) (ha : t.ack = none) : t.Inv where
  cfgValid := hc
  xLimbs := hx
  drawLegal _ h := by rw [hd] at h; cases h
  idleNoDraw _ := hd
  ackOfDraw _ := ha
  runningOk _ h := by rw [hp] at h; cases h

theorem State.Inv.afterTurn (hI : s.Inv) : s.afterTurn.Inv := hI.congr rfl rfl rfl rfl hI.ackOfDraw

/-- Rule R59: a write of a limb keeps every register's length. -/
theorem State.Inv.writeLimb (hI : s.Inv) (k : XName) (j : Nat) (v : Word) : (s.writeLimb k j v).Inv where
  cfgValid := hI.cfgValid
  xLimbs k' := by
    rw [State.xreg_writeLimb]
    split
    · rw [List.length_set]; exact hI.xLimbs k
    · exact hI.xLimbs k'
  drawLegal := hI.drawLegal
  idleNoDraw := hI.idleNoDraw
  ackOfDraw := hI.ackOfDraw
  runningOk := hI.runningOk

/-- Rule R34: the accepted command is at its start, with no request. -/
theorem State.Inv.accept (hI : s.Inv) (hp : s.phase = .idle) (c : Word) {r : Running}
    (hr : r.Ok s.cfg none) : (s.accept c r).Inv where
  cfgValid := hI.cfgValid
  xLimbs := hI.xLimbs
  drawLegal := hI.drawLegal
  idleNoDraw h := by cases h
  ackOfDraw := hI.ackOfDraw
  runningOk r' h := by
    cases h
    rw [State.accept_draw, hI.idleNoDraw hp]
    exact hr

theorem State.Inv.resetPulse (hI : s.Inv) : s.resetPulse.Inv :=
  .of_idle hI.cfgValid (fun k => by rw [State.xreg_resetPulse, List.length_map, List.length_range]; rfl)
    rfl rfl rfl

/-- Rules R40, R162, R163: an engine step comes to a point its pseudocode can reach, or to rest. -/
theorem State.Inv.engineStep (hI : s.Inv) {r : Running} (hp : s.phase = .busy r)
    (h : engineStep s = .next t) : t.Inv := by
  rcases engineStep_inv hI hp h with rfl | ⟨r', d, a, rfl, hok, hlegal, hack⟩ | ⟨i, _, hdone⟩ | ⟨e, rfl, _⟩
  · exact hI
  · exact { hI with
      drawLegal := hlegal
      idleNoDraw := fun h => nomatch h
      ackOfDraw := hack
      runningOk := fun r h => by cases h; exact hok }
  · obtain ⟨hphase, hdraw, hack, _⟩ := hdone.ends
    exact .of_idle (hdone.cfg_eq ▸ hI.cfgValid) (hdone.xLimbs hI.xLimbs) hphase hdraw hack
  · exact .of_idle hI.cfgValid hI.xLimbs rfl rfl rfl

/-- Settles O60: case by case of `step_cases`, the state after the step meets the invariant. -/
theorem everyStepKeepsTheInvariant : Obligations.EveryStepKeepsTheInvariant := by
  intro s t hI h
  have hI' := hI.afterTurn
  rcases step_cases h with ⟨_, _, _, rfl, _⟩ | ⟨v, _, hreq, rfl⟩ | ⟨_, _, _, _, _, _, _, _, _, rfl, _⟩ |
    ⟨a, k, j, _, _, _, _, _, rfl⟩ | ⟨c, r, _, hidle, rfl, _, hr⟩ | ⟨r, hp, hengine⟩ | ⟨_, rfl⟩
  · exact hI'.congr rfl rfl rfl rfl hI'.ackOfDraw
  · refine hI'.congr rfl rfl rfl rfl fun (hd : s.draw = none) => absurd ?_ hreq
    simp [State.inFlight, hI.ackOfDraw hd, hd]
  · exact hI'.congr rfl rfl rfl rfl hI'.ackOfDraw
  · exact (hI'.writeLimb k j a.wdata).congr rfl rfl rfl rfl hI'.ackOfDraw
  · exact (hI'.accept hidle c (hr hI.xLimbs)).congr rfl rfl rfl rfl hI'.ackOfDraw
  · exact hI'.engineStep hp hengine
  · exact hI'.resetPulse

end Sys2Proof.Machine
end

section
/-! The register window: reads and writes of scalar registers, limbs and reserved offsets as steps (rules
R39, R51, R52, R58, R59, R62), and the fields of the words read there (rules R30 to R32, R161). -/

namespace Sys2Proof.Machine

variable {s : State}

/-! ## Scalar registers -/

/-- Settles O11: each of the nine offsets decodes to its own register, whose read leaves the state. -/
theorem scalarReadsReturnTheRegister : Obligations.ScalarReadsReturnTheRegister := by
  intro s es off v hv hmem
  have hslot := slotAt_scalar s.cfg
  simp only [List.mem_cons, Prod.mk.injEq, List.not_mem_nil, or_false] at hmem
  rcases hmem with ⟨rfl, rfl⟩ | ⟨rfl, rfl⟩ | ⟨rfl, rfl⟩ | ⟨rfl, rfl⟩ | ⟨rfl, rfl⟩ | ⟨rfl, rfl⟩ | ⟨rfl, rfl⟩ |
    ⟨rfl, rfl⟩ | ⟨rfl, rfl⟩
  · exact step_read hv (by decide) (by decide) fun o => (hslot o).1
  · exact step_read hv (by decide) (by decide) fun o => (hslot o).2.1
  · exact step_read hv (by decide) (by decide) fun o => (hslot o).2.2.1
  · exact step_read hv (by decide) (by decide) fun o => (hslot o).2.2.2.1
  · exact step_read hv (by decide) (by decide) fun o => (hslot o).2.2.2.2.1
  · exact step_read hv (by decide) (by decide) fun o => (hslot o).2.2.2.2.2.1
  · exact step_read hv (by decide) (by decide) fun o => (hslot o).2.2.2.2.2.2.1
  · exact step_read hv (by decide) (by decide) fun o => (hslot o).2.2.2.2.2.2.2.1
  · exact step_read hv (by decide) (by decide) fun o => (hslot o).2.2.2.2.2.2.2.2

/-! ## Limbs -/

/-- Rules R28, R58, R169: a read of a limb gives a word, the limb's own while IDLE, and changes the recorded
fault and the model's counter only. -/
theorem readLimb_eq (s : State) (k : XName) (i : Nat) :
    ∃ v n, s.readLimb k i =
        (v, { s with fresh := n, recorded := if (s.limb k i).written then s.recorded else some .unwrittenRead }) ∧
      (s.phase = .idle → v = (s.limb k i).val) := by
  have hmark : (if (s.limb k i).written then s else s.recordUnwritten) =
      { s with recorded := if (s.limb k i).written then s.recorded else some .unwrittenRead } := by
    split <;> rfl
  unfold State.readLimb
  simp only [hmark]
  cases hb : s.busy with
  | true =>
    obtain ⟨r, hr⟩ := (State.busy_iff s).1 hb
    exact ⟨_, _, rfl, fun h => by rw [hr] at h; cases h⟩
  | false => exact ⟨_, _, rfl, fun _ => rfl⟩

/-- In a configuration of this hardware the limbs of a register have their own offsets (rule R52). -/
theorem slotAt_of_lt_nlimbs {c : Config} {k : XName} {i : Nat} (hv : c.valid = true) (hi : i < c.nlimbs) :
    i < 128 ∧ ∀ o : BitVec 13, o.toNat = limbOffset k i → slotAt c o = .limb k i := by
  have h128 : i < 128 := by have := (valid_iff.1 hv).1; omega
  exact ⟨h128, fun o ho => by rw [slotAt_limbOffset h128 ho, if_pos hi]⟩

/-- Settles O12: the limb's offset decodes to the limb, which is read as `readLimb_eq` says. -/
theorem limbReads : Obligations.LimbReads := by
  intro s es k i hv hi
  obtain ⟨h128, hslot⟩ := slotAt_of_lt_nlimbs (k := k) hv hi
  obtain ⟨hlt, h4⟩ := limbOffset_lt k h128
  obtain ⟨v, n, hread, hval⟩ := readLimb_eq { s with script := es } k i
  refine ⟨v, n, ?_, hval⟩
  rw [step_read hv hlt h4 hslot, State.readSlot, hread]
  rfl

/-- The step of a host write of a limb while IDLE (rule R59). -/
theorem step_write_limb {k : XName} {i : Nat} {v : Word} {es : List Event} (hv : s.cfg.valid = true)
    (hp : s.phase = .idle) (hi : i < s.cfg.nlimbs) :
    step { s with script := hostWrite s.cfg (limbOffset k i) v :: es } =
      .next ((State.writeLimb { s with script := es } k i v).respond false none) := by
  obtain ⟨h128, hslot⟩ := slotAt_of_lt_nlimbs (k := k) hv hi
  obtain ⟨hlt, h4⟩ := limbOffset_lt k h128
  exact step_write_idle hv ((State.not_busy_iff s).2 hp) hlt h4 hslot (by simp)

/-- Settles O16: the write and the read of a limb, one after the other; reading leaves X as it was written. -/
theorem limbWrittenThenRead : Obligations.LimbWrittenThenRead := by
  intro s es k i v hv hp hx hi
  let m : State := (s.writeLimb k i v).respond false none
  have hlimb : ∀ k' j, m.limb k' j = if k' = k ∧ j = i then { val := v, written := true } else s.limb k' j :=
    fun k' j => State.limb_writeLimb s k k' i j v (hx k ▸ hi)
  have hself : m.limb k i = { val := v, written := true } := by rw [hlimb, if_pos ⟨rfl, rfl⟩]
  obtain ⟨w, n, hread, hval⟩ := limbReads m es k i hv hi
  rw [hval hp, hself] at hread
  refine ⟨_, _, step_write_limb hv hp hi, hread, rfl, rfl, hself, fun k' j hne => ?_⟩
  exact (hlimb k' j).trans (if_neg fun h => hne (Prod.ext h.1 h.2))

/-! ## Reserved offsets -/

/-- Settles O15: the slot of a reserved offset is the reserved one, which a read and a write in either phase
leave alone. -/
theorem reservedOffsetsReadZeroIgnoreWrites : Obligations.ReservedOffsetsReadZeroIgnoreWrites := by
  intro s es off v hv hres
  obtain ⟨hlt, h4, hslot⟩ := slotAt_reservedOffset hres
  refine ⟨step_read hv hlt h4 hslot, ?_⟩
  cases hb : s.busy with
  | true => exact step_write_busy hv hb hlt h4 hslot
  | false => exact step_write_idle hv hb hlt h4 hslot (by simp)

/-! ## The words read at STATUS, CTRL and CFG

A field of a word that is written as its fields side by side is found by skipping the fields below it and
dropping those above it. -/

/-- Settles O18: NLIMBS is at most 128 and so fits its field of eight bits. -/
theorem cfgWordFields : Obligations.CfgWordFields := by
  intro c hc
  have hn : c.nlimbs < 2 ^ 8 := by have := (valid_iff.1 hc).1; omega
  have hfield : (cfgWord c).extractLsb' 8 8 = BitVec.ofNat 8 c.nlimbs := by
    simp (disch := decide) only [cfgWord, BitVec.extractLsb'_append_eq_of_le,
      BitVec.extractLsb'_append_eq_of_add_le]
    exact BitVec.extractLsb'_eq_self
  refine ⟨?_, by rw [hfield, BitVec.toNat_ofNat, Nat.mod_eq_of_lt hn], ?_, ?_, ?_⟩
  all_goals
    simp (disch := decide) only [cfgWord, BitVec.extractLsb'_append_eq_of_le,
      BitVec.extractLsb'_append_eq_of_add_le]
    rfl

/-- The four-bit field ERRCODE of STATUS (rule R32). -/
theorem statusWord_errcode (s : State) : s.statusWord.extractLsb' 8 4 = s.errcode.code := by
  simp (disch := decide) only [State.statusWord, BitVec.extractLsb'_append_eq_of_le,
    BitVec.extractLsb'_append_eq_of_add_le]
  exact BitVec.extractLsb'_eq_self

/-- The one-bit fields of STATUS (rule R32). -/
theorem statusWord_bits (s : State) :
    s.statusWord.getLsbD 0 = s.busy ∧ s.statusWord.getLsbD 1 = s.done ∧ s.statusWord.getLsbD 2 = s.err ∧
      s.statusWord.getLsbD 3 = s.prime ∧ s.statusWord.getLsbD 4 = s.ovr := by
  simp only [State.statusWord, BitVec.getLsbD_append]
  simp

/-- The reserved bits of STATUS (rule R32). -/
theorem statusWord_reserved (s : State) :
    s.statusWord.extractLsb' 5 3 = 0 ∧ s.statusWord.extractLsb' 12 20 = 0 := by
  constructor <;>
    simp (disch := decide) only [State.statusWord, BitVec.extractLsb'_append_eq_of_le,
      BitVec.extractLsb'_append_eq_of_add_le] <;>
    rfl

/-- The fields of CTRL (rule R31). -/
theorem ctrlWord_fields (s : State) : s.ctrlWord.getLsbD 0 = s.ie ∧ s.ctrlWord.extractLsb' 1 31 = 0 := by
  constructor
  · simp only [State.ctrlWord, BitVec.getLsbD_append]
    simp
  · rw [State.ctrlWord, BitVec.extractLsb'_append_eq_of_le le_rfl]
    rfl

/-- Settles O17: ERR is the same comparison of ERRCODE that the field's bits give. -/
theorem statusAndCtrlWordFields : Obligations.StatusAndCtrlWordFields := by
  refine ⟨⟨rfl, rfl, rfl, rfl, rfl, rfl⟩, fun e => by cases e <;> decide, fun s => ?_⟩
  obtain ⟨hie, hctrl⟩ := ctrlWord_fields s
  obtain ⟨hbusy, hdone, herr, hprime, hovr⟩ := statusWord_bits s
  obtain ⟨hlow, hhigh⟩ := statusWord_reserved s
  have hcode := statusWord_errcode s
  exact ⟨hie, hctrl, hbusy, hdone, hcode ▸ herr, hprime, hovr, hlow, hcode, hhigh⟩

end Sys2Proof.Machine
end

section
/-! Acceptance and the engine's step: what each command does while IDLE (rules R34, R65, R141), that the step
runs it (rules R33, R203), and what nothing stops or changes (rules R41, R60, R160); reset (rules R43,
R190, R191). -/

namespace Sys2Proof.Machine

variable {s : State}

/-! ## Acceptance -/

/-- The snapshot mark records the fault exactly when an operand limb is unwritten (rules R28, R169). -/
theorem State.markSnapshot_eq_ite (s : State) (ks : List XName) :
    s.markSnapshot ks =
      { s with recorded := if ks.all fun k => s.xWritten k then s.recorded else some .unwrittenRead } := by
  unfold State.markSnapshot
  split <;> rfl

/-- Settles O21: the IDLE arm of each command, with the snapshot mark as an update of one field. -/
theorem acceptanceTakesTheSnapshot : Obligations.AcceptanceTakesTheSnapshot := by
  intro s h
  refine ⟨fun rd ra rb rc => ?_, fun ra => ?_, fun rd sel => ?_, ?_⟩
  · simp only [exec, execPowmod, h, State.markSnapshot_eq_ite, List.all_cons, List.all_nil, Bool.and_true,
      ← Bool.and_assoc]
    rfl
  · simp only [exec, execIsprime, h, State.markSnapshot_eq_ite, List.all_cons, List.all_nil, Bool.and_true]
    rfl
  · simp only [exec, execPrimegen, h]
    cases sel <;> rfl
  · simp only [exec, execSplit, h]
    rfl

/-- Settles O20: the write's step is the acceptance of its word, which decodes to the command. -/
theorem stepAcceptsTheCommandWritten : Obligations.StepAcceptsTheCommandWritten := by
  intro s c i es hv hp hc
  rw [step_write_cmd hv ((State.not_busy_iff s).2 hp), acceptWord, hc]

/-! ## The engine's step -/

/-- Settles O19: the engine's turn, listed or not, and the cycle that becomes the script. -/
theorem stepRunsTheDecodedCommand : Obligations.StepRunsTheDecodedCommand := by
  refine ⟨fun s r i es hv hp hc => ⟨fun hs hcy => ?_, fun hs => ?_⟩, fun s e es hs hcy => ?_⟩
  · rw [step_empty hv hs hcy, engineStep_command hp hc]
  · rw [step_event hv hs]
    exact engineStep_command hp hc
  · by_cases hv : s.cfg.valid = true
    · rw [step_cycle hv hs hcy, step_event (s := { s with script := e :: es }) hv rfl]
    · rw [step_refused_of_not_valid hv, step_refused_of_not_valid (s := { s with script := e :: es }) hv]

/-- Settles O24: by the command issued and the command that runs. -/
theorem commandsIssuedWhileBusyAreDropped : Obligations.CommandsIssuedWhileBusyAreDropped := by
  intro s r i hp hne
  show exec i s = .next s.dropWrite
  cases i with
  | powmod rd ra rb rc =>
    cases r with
    | powmod d a b c w =>
      have : ¬(d = rd ∧ a = ra ∧ b = rb ∧ c = rc) := fun ⟨h1, h2, h3, h4⟩ => hne (by rw [h1, h2, h3, h4]; rfl)
      simp only [exec, execPowmod, hp, if_neg this]
    | _ => simp only [exec, execPowmod, hp]
  | isprime ra =>
    cases r with
    | isprime a w =>
      have : ¬a = ra := fun h => hne (by rw [h]; rfl)
      simp only [exec, execIsprime, hp, if_neg this]
    | _ => simp only [exec, execIsprime, hp]
  | primegen rd sel =>
    cases r with
    | primegen d b w =>
      have : ¬(d = rd ∧ b = sel) := fun ⟨h1, h2⟩ => hne (by rw [h1, h2]; rfl)
      simp only [exec, execPrimegen, hp, if_neg this]
    | _ => simp only [exec, execPrimegen, hp]
  | split =>
    cases r with
    | split w => exact absurd rfl hne
    | _ => simp only [exec, execSplit, hp]

theorem acceptWord_next (c : Word) (s : State) : ∃ t, acceptWord c s = .next t := by
  unfold acceptWord
  cases decode c with
  | cmd i => exact exec_next i s
  | illegal => exact ⟨_, rfl⟩

theorem busEvent_next (a : Access) (s : State) : ∃ t, busEvent a s = .next t := by
  unfold busEvent
  cases s.busStep a with
  | settled u => exact ⟨u, rfl⟩
  | command c u => exact acceptWord_next c u

theorem engineStep_next (s : State) : ∃ t, engineStep s = .next t := by
  cases hp : s.phase with
  | idle => exact ⟨s, engineStep_idle hp⟩
  | busy r =>
    cases hc : r.command with
    | some i => rw [engineStep_command hp hc]; exact exec_next i s
    | none => simp only [engineStep, hp, hc]; exact ⟨_, rfl⟩

theorem handleEvent_next (e : Event) (s : State) : ∃ t, handleEvent e s = .next t := by
  cases e with
  | bus a => exact busEvent_next a s
  | engine => exact engineStep_next s
  | answer v => exact ⟨_, rfl⟩
  | freeAnswer => exact ⟨_, rfl⟩
  | reset => exact ⟨_, rfl⟩

/-- Settles O51: no move of an agent ends in a fault or a refusal. -/
theorem noCommandStopsTheMachine : Obligations.NoCommandStopsTheMachine :=
  ⟨exec_next, fun s hv => by rw [step_turn hv]; exact handleEvent_next _ _⟩

/-- With a request in flight the running command's step is no step (rules R41, R133). -/
theorem exec_wait {r : Running} {i : Instr} {d : Draw} (hp : s.phase = .busy r) (hc : r.command = some i)
    (hd : s.draw = some d) (ha : s.ack = none) : exec i s = .next s := by
  cases r with
  | illegal => cases hc
  | powmod rd ra rb rc w => cases hc; rw [exec_powmod_busy hp, engineRun_wait hd ha]
  | isprime ra w => cases hc; rw [exec_isprime_busy hp, engineRun_wait hd ha]
  | primegen rd sel w => cases hc; rw [exec_primegen_busy hp, engineRun_wait hd ha]
  | split w => cases hc; rw [exec_split_busy hp, engineRun_wait hd ha]

/-- Settles O52: the engine's turn runs the decoded command, which waits. -/
theorem drawInFlightHoldsTheEngine : Obligations.DrawInFlightHoldsTheEngine := by
  intro s r i d hv hp hc hd ha
  obtain ⟨hrun, hcycle⟩ := stepRunsTheDecodedCommand
  have hlisted : ∀ es, step { s with script := .engine :: es } = .next { s with script := es } := fun es => by
    rw [(hrun { s with script := .engine :: es } r i es hv hp hc).2 rfl]
    exact exec_wait (s := { s with script := es }) hp hc hd ha
  refine ⟨fun hs hcy => ?_, hlisted, fun es hs hcy => ?_, ?_, ?_, rfl⟩
  · rw [(hrun s r i [] hv hp hc).1 hs hcy, exec_wait hp hc hd ha]
  · rw [hcycle s _ es hs hcy, hlisted]
  · rw [State.inFlight, ha, hd]
  · rw [State.final, hd]
    simp

/-! ## Reset -/

/-- A limb of a register without a written limb is unwritten, held or not (log entry 20). -/
theorem State.limb_unwritten {k : XName} (h : ∀ l ∈ s.xreg k, l.written = false) (i : Nat) :
    (s.limb k i).written = false := by
  rw [State.limb, List.getD_eq_getElem?_getD]
  cases hl : (s.xreg k)[i]? with
  | none => rfl
  | some l => exact h l (List.mem_of_getElem? hl)

/-- Settles O6: the limbs are copies of one unwritten limb, and the words read are closed terms. -/
theorem resetValues : Obligations.ResetValues := by
  intro c
  refine ⟨fun k => State.limb_unwritten fun l hl => ?_, rfl, rfl, ?_, ?_, rfl, rfl, rfl, rfl, rfl, rfl, rfl, rfl⟩
  · rw [State.xreg_resetOf] at hl
    rw [List.eq_of_mem_replicate hl]
  · show State.reset.ctrlWord = 0
    decide
  · show State.reset.statusWord = 0
    decide

/-- Settles O7: the move's step is `resetPulse`, whose state has no request to answer. -/
theorem resetAbandonsTheCommand : Obligations.ResetAbandonsTheCommand := by
  intro s es hv
  refine ⟨State.resetPulse { s with script := es }, step_event (s := { s with script := .reset :: es }) hv rfl,
    rfl, rfl, rfl, rfl, rfl, rfl, rfl, rfl, rfl, rfl, rfl, rfl, rfl, fun k => State.limb_unwritten fun l hl => ?_,
    rfl, rfl, rfl, rfl, fun v => State.answered_none rfl, State.answeredFree_none rfl⟩
  rw [State.xreg_resetPulse] at hl
  obtain ⟨_, _, rfl⟩ := List.mem_map.1 hl
  rfl

end Sys2Proof.Machine
end

section
/-! POWMOD from its start, and from the host's write of its word, to its result (rules R34, R45, R65, R90 to
R98). -/

namespace Sys2Proof.Machine

variable {s : State} {rd ra rb rc : XName}

/-- The law's value fits a register that holds the modulus (rules R93, R98). -/
theorem powmodLaw_lt {c : Config} {b e m : Nat} (hm : m ≠ 0) (hlt : m < 2 ^ c.width) (hn : 1 ≤ c.nlimbs) :
    powmodLaw b e m < 2 ^ c.width := by
  unfold powmodLaw
  split
  · exact Nat.one_lt_two_pow (by unfold Config.width; omega)
  · exact (Nat.mod_lt _ (by omega)).trans hlt

/-- POWMOD from its start with M >= 1 writes the law's value and completes (rules R90, R162). -/
theorem exec_powmod_result {w : PowWork} (hp : s.phase = .busy (.powmod rd ra rb rc w)) (hd : s.draw = none)
    (hl : w.loop = none) (hm : w.m ≠ 0) :
    exec (.powmod rd ra rb rc) s = .next (s.writeX rd (powmodLaw w.b w.e w.m)).complete := by
  rw [exec_powmod_busy hp, engineRun_free hd, powmod_run w hl hm]
  rfl

/-- Settles O25: the value written is the law's, which fits the register that is read back. -/
theorem powmodWritesThePower : Obligations.PowmodWritesThePower := by
  intro s rd ra rb rc w hp hd hl hm
  refine ⟨_, exec_powmod_result hp hd hl hm, rfl, fun hlt hn => ⟨?_, s.xWritten_writeX rd _⟩, fun k hk => ?_⟩
  · exact s.xval_writeX_self rd (powmodLaw_lt hm hlt hn)
  · exact (s.xreg_writeX rd k _).trans (if_neg hk)

/-- The decoder takes POWMOD's word apart (rules R78, R79). -/
theorem decode_encode_powmod (rd ra rb rc : XName) :
    decode (encode (.powmod rd ra rb rc)) = .cmd (.powmod rd ra rb rc) := by
  have hmatch : encode (.powmod rd ra rb rc) &&& 0xFF8888FF#32 = 0x00000001#32 := by
    apply word_ext
    intro i hi
    simp only [encode, BitVec.getLsbD_and, BitVec.getLsbD_append]
    interval_cases i <;> simp
  have hfields : regField (encode (.powmod rd ra rb rc)) 8 = rd ∧ regField (encode (.powmod rd ra rb rc)) 12 = ra ∧
      regField (encode (.powmod rd ra rb rc)) 16 = rb ∧ regField (encode (.powmod rd ra rb rc)) 20 = rc := by
    refine ⟨?_, ?_, ?_, ?_⟩ <;>
      simp (disch := decide) only [regField, encode, BitVec.extractLsb'_append_eq_of_le,
        BitVec.extractLsb'_append_eq_of_add_le] <;>
      exact BitVec.extractLsb'_eq_self
  obtain ⟨hrd, hra, hrb, hrc⟩ := hfields
  rw [decode, if_pos hmatch, hrd, hra, hrb, hrc]

/-- The step of the host's write of POWMOD's word while IDLE: its acceptance, with an unwritten operand limb
recorded or not (rules R34, R169). -/
theorem step_accepts_powmod {es : List Event} (hv : s.cfg.valid = true) (hp : s.phase = .idle) :
    ∃ f, step { s with script := hostCommand s.cfg (.powmod rd ra rb rc) :: es } =
      .next { s.accept (encode (.powmod rd ra rb rc)) (.powmod rd ra rb rc (powmodSnapshot ra rb rc s)) with
                script := es, resp := some { err := false, rdata := none }, recorded := f } :=
  ⟨_, (stepAcceptsTheCommandWritten s _ _ es hv hp (decode_encode_powmod rd ra rb rc)).trans
    ((acceptanceTakesTheSnapshot { s with script := es, resp := some { err := false, rdata := none } } hp).1
      rd ra rb rc)⟩

/-- The engine's move at POWMOD's start with M >= 1 (rules R90, R162). -/
theorem step_powmod_result {es : List Event} {w : PowWork} (hv : s.cfg.valid = true)
    (hs : s.script = .engine :: es) (hp : s.phase = .busy (.powmod rd ra rb rc w)) (hd : s.draw = none)
    (hl : w.loop = none) (hm : w.m ≠ 0) :
    step s = .next (State.writeX { s with script := es } rd (powmodLaw w.b w.e w.m)).complete := by
  rw [(stepRunsTheDecodedCommand.1 s _ _ es hv hp rfl).2 hs]
  exact exec_powmod_result (s := { s with script := es }) hp hd hl hm

/-- Settles O26: the acceptance of the word, then the engine's step from the snapshot. -/
theorem powmodFromCommandWriteToResult : Obligations.PowmodFromCommandWriteToResult := by
  intro s rd ra rb rc es hv hx hp hd hm
  obtain ⟨f, haccept⟩ := step_accepts_powmod (rd := rd) (ra := ra) (rb := rb) (rc := rc) (es := .engine :: es) hv hp
  refine ⟨_, _, haccept, rfl, rfl, rfl, step_powmod_result hv rfl rfl hd rfl hm, rfl, rfl, rfl, ?_, fun k hk => ?_,
    State.xWritten_writeX _ rd _, rfl, rfl, rfl, rfl, rfl, rfl, rfl, rfl, rfl⟩
  · exact State.xval_writeX_self _ rd (powmodLaw_lt hm (s.xval_lt rc (hx rc)) (valid_iff.1 hv).1.1)
  · exact (State.xreg_writeX _ rd k _).trans (if_neg hk)

end Sys2Proof.Machine
end

section
/-! The random source's move (rules R24, R41, R130, R191), and what the engine's step and every other step
can write (rules R27, R42, R45, R123, R153). -/

namespace Sys2Proof.Machine

variable {s t : State} {r : Running} {i : Instr}

/-! ## The random source's move -/

/-- A request is in flight while it has no answer (rule R41). -/
theorem State.inFlight_eq_some {d : Draw} : s.inFlight = some d ↔ s.draw = some d ∧ s.ack = none := by
  unfold State.inFlight
  cases s.ack <;> simp

theorem step_answer {v : Nat} {es : List Event} (hv : s.cfg.valid = true) :
    step { s with script := .answer v :: es } = .next (State.answered { s with script := es } v) :=
  step_event (s := { s with script := .answer v :: es }) hv rfl

theorem step_freeAnswer {es : List Event} (hv : s.cfg.valid = true) :
    step { s with script := .freeAnswer :: es } = .next (State.answeredFree { s with script := es }) :=
  step_event (s := { s with script := .freeAnswer :: es }) hv rfl

/-- Settles O46: by whether a request is in flight. -/
theorem randomSourceAnswersTheRequest : Obligations.RandomSourceAnswersTheRequest := by
  refine ⟨fun s v es hv => ?_, fun s d => State.inFlight_eq_some, fun d v => Draw.freeAnswer_surjective⟩
  rw [step_answer hv, step_freeAnswer hv]
  refine ⟨fun d hf => ?_, fun hf => ?_⟩
  · rw [State.answered_some (s := { s with script := es }) hf,
      State.answeredFree_some (s := { s with script := es }) hf]
    exact ⟨rfl, _, rfl, fun hl => Draw.freeAnswer_lawful hl _⟩
  · rw [State.answered_none (s := { s with script := es }) hf,
      State.answeredFree_none (s := { s with script := es }) hf]
    exact ⟨rfl, rfl⟩

/-! ## The running command's step -/

/-- Settles O48: a completion of `exec_busy_cases` has no error, and an error writes no result. -/
theorem completionsWriteOnlyTheirMatrix : Obligations.CompletionsWriteOnlyTheirMatrix := by
  intro s t r i hp hc h hidle
  rcases exec_busy_cases hp hc h with ⟨_, _, _, _, rfl⟩ | hdone | ⟨e, he, rfl⟩
  · cases hidle
  · obtain ⟨_, _, _, hcode, _⟩ := hdone.ends
    rw [if_pos hcode]
    cases i with
    | powmod rd ra rb rc => exact hdone
    | isprime ra => exact hdone
    | primegen rd sel => exact hdone
    | split =>
      obtain ⟨p, rfl⟩ := hdone
      exact ⟨_, _, rfl⟩
  · rw [State.raiseError_errcode, if_neg he]
    rfl

/-- Settles O49: of the cases of `exec_busy_cases` only the first leaves the engine BUSY. -/
theorem unfinishedCommandsWriteNothing : Obligations.UnfinishedCommandsWriteNothing := by
  intro s t r i hp hc h hbusy
  rcases exec_busy_cases hp hc h with ⟨_, _, _, hcmd, rfl⟩ | hdone | ⟨e, _, rfl⟩
  · exact ⟨rfl, fun r' h => by cases h; exact hcmd⟩
  · rw [(State.not_busy_iff t).2 hdone.ends.1] at hbusy
    cases hbusy
  · cases hbusy

/-! ## Every step -/

theorem Running.eq_isprime_of_command {ra : XName} (h : r.command = some (.isprime ra)) :
    ∃ w, r = .isprime ra w := by
  cases r with
  | isprime a w => cases h; exact ⟨w, rfl⟩
  | _ => cases h

/-- No command's results hold the flag OVR (rule R45). -/
theorem engineStep_ovr (hp : s.phase = .busy r) (h : engineStep s = .next t) : t.ovr = s.ovr := by
  rcases engineStep_cases hp h with ⟨_, _, _, rfl⟩ | ⟨i, _, hdone⟩ | ⟨_, _, rfl⟩
  · rfl
  · cases i <;> obtain ⟨_, rfl⟩ := hdone <;> rfl
  · rfl

/-- An engine step sets DONE only by coming to rest (rules R162, R163). -/
theorem engineStep_done (hp : s.phase = .busy r) (h : engineStep s = .next t) :
    t.done = s.done ∨ t.phase = .idle := by
  rcases engineStep_cases hp h with ⟨_, _, _, rfl⟩ | ⟨_, _, hdone⟩ | ⟨_, _, rfl⟩
  · exact .inl rfl
  · exact .inr hdone.ends.1
  · exact .inr rfl

/-- An engine step changes PRIME only by completing an ISPRIME (rule R123). -/
theorem engineStep_prime (hp : s.phase = .busy r) (h : engineStep s = .next t) (hne : t.prime ≠ s.prime) :
    ∃ ra w, r = .isprime ra w ∧ CompletedBy s t (.isprime ra) := by
  rcases engineStep_cases hp h with ⟨_, _, _, rfl⟩ | ⟨i, hc, hdone⟩ | ⟨_, _, rfl⟩
  · exact absurd rfl hne
  · cases i with
    | isprime ra =>
      obtain ⟨w, hw⟩ := Running.eq_isprime_of_command hc
      exact ⟨ra, w, hw, hdone⟩
    | _ => obtain ⟨_, rfl⟩ := hdone; exact absurd rfl hne
  · exact absurd rfl hne

/-- An engine step changes X only by completing a POWMOD or PRIMEGEN, in the register it names (rules R27,
R153). -/
theorem engineStep_x (hp : s.phase = .busy r) (h : engineStep s = .next t) (hne : t.x ≠ s.x) :
    ∃ i rd v, r.command = some i ∧ ((∃ ra rb rc, i = .powmod rd ra rb rc) ∨ ∃ sel, i = .primegen rd sel) ∧
      t = (s.writeX rd v).complete := by
  rcases engineStep_cases hp h with ⟨_, _, _, rfl⟩ | ⟨i, hc, hdone⟩ | ⟨_, _, rfl⟩
  · exact absurd rfl hne
  · cases i with
    | powmod rd ra rb rc =>
      obtain ⟨v, rfl⟩ := hdone
      exact ⟨_, rd, v, hc, .inl ⟨ra, rb, rc, rfl⟩, rfl⟩
    | primegen rd sel =>
      obtain ⟨v, rfl⟩ := hdone
      exact ⟨_, rd, v, hc, .inr ⟨sel, rfl⟩, rfl⟩
    | _ => obtain ⟨_, rfl⟩ := hdone; exact absurd rfl hne
  · exact absurd rfl hne

/-- Settles O53: of the cases of `step_cases` the engine's step and reset alone write PRIME. -/
theorem primeChangesOnlyByIsprime : Obligations.PrimeChangesOnlyByIsprime := by
  intro s t h hne
  rcases step_cases h with ⟨_, _, _, rfl, _⟩ | ⟨_, _, _, rfl⟩ | ⟨_, _, _, _, _, _, _, _, _, rfl, _⟩ |
    ⟨_, _, _, _, _, _, _, _, rfl⟩ | ⟨_, _, _, _, rfl, _⟩ | ⟨r, hp, hengine⟩ | ⟨hreset, rfl⟩
  case inr.inr.inr.inr.inr.inl =>
    obtain ⟨ra, w, rfl, hdone⟩ := engineStep_prime (s := s.afterTurn) hp hengine hne
    obtain ⟨hphase, _, _, hcode, hd⟩ := hdone.ends
    exact .inl ⟨ra, w, hp, hphase, hcode, hd⟩
  case inr.inr.inr.inr.inr.inr => exact .inr ⟨hreset, rfl⟩
  all_goals exact absurd rfl hne

/-- A step sets OVR only as a host write dropped while BUSY (rules R42, R60). -/
theorem step_sets_ovr (h : step s = .next t) (h0 : s.ovr = false) (h1 : t.ovr = true) :
    s.busy = true ∧ ∃ a, s.turn.1 = .bus a ∧ a.write = true ∧ inWindow s.cfg a.addr = true ∧
      DroppedSlot (slotAt s.cfg (portAddr a.addr)) := by
  rcases step_cases h with ⟨_, _, _, rfl, _⟩ | ⟨_, _, _, rfl⟩ |
    ⟨a, _, _, _, _, _, hturn, hwrite, hin, rfl, _, hovr, _⟩ | ⟨_, _, _, _, _, _, _, _, rfl⟩ |
    ⟨_, _, _, _, rfl, _⟩ | ⟨r, hp, hengine⟩ | ⟨_, rfl⟩
  case inr.inr.inl =>
    obtain ⟨hbusy, hdropped⟩ := hovr h0 h1
    exact ⟨hbusy, a, hturn, hwrite, hin, hdropped⟩
  case inr.inr.inr.inr.inr.inl =>
    rw [engineStep_ovr (s := s.afterTurn) hp hengine] at h1
    exact absurd (h0.symm.trans h1) Bool.false_ne_true
  case inr.inr.inr.inr.inr.inr => exact absurd h1 Bool.false_ne_true
  all_goals exact absurd (h0.symm.trans h1) Bool.false_ne_true

/-- A step sets DONE only as the engine's step that ends a command (rules R42, R162, R163). -/
theorem step_sets_done (h : step s = .next t) (h0 : s.done = false) (h1 : t.done = true) :
    s.busy = true ∧ t.phase = .idle := by
  rcases step_cases h with ⟨_, _, _, rfl, _⟩ | ⟨_, _, _, rfl⟩ | ⟨_, _, _, _, _, _, _, _, _, rfl, hdone, _⟩ |
    ⟨_, _, _, _, _, _, _, _, rfl⟩ | ⟨_, _, _, _, rfl, _⟩ | ⟨r, hp, hengine⟩ | ⟨_, rfl⟩
  case inr.inr.inl => exact absurd ((hdone h0).symm.trans h1) Bool.false_ne_true
  case inr.inr.inr.inr.inl => exact absurd h1 Bool.false_ne_true
  case inr.inr.inr.inr.inr.inl =>
    refine ⟨(State.busy_iff s).2 ⟨r, hp⟩, ?_⟩
    rcases engineStep_done (s := s.afterTurn) hp hengine with hd | hidle
    · exact absurd (h0.symm.trans (hd.symm.trans h1)) Bool.false_ne_true
    · exact hidle
  case inr.inr.inr.inr.inr.inr => exact absurd h1 Bool.false_ne_true
  all_goals exact absurd (h0.symm.trans h1) Bool.false_ne_true

/-- Settles O54. -/
theorem ovrAndDoneAreSetOnlyByTheirCause : Obligations.OvrAndDoneAreSetOnlyByTheirCause :=
  fun _ _ h => ⟨step_sets_ovr h, step_sets_done h⟩

/-- Settles O57: of the cases of `step_cases` a limb write, the engine's step and reset alone write X. -/
theorem xChangesOnlyByItsWriters : Obligations.XChangesOnlyByItsWriters := by
  intro s t h hne
  rcases step_cases h with ⟨_, _, _, rfl, _⟩ | ⟨_, _, _, rfl⟩ | ⟨_, _, _, _, _, _, _, _, _, rfl, _⟩ |
    ⟨a, k, i, hidle, hturn, hwrite, hin, hslot, rfl⟩ | ⟨_, _, _, _, rfl, _⟩ | ⟨r, hp, hengine⟩ | ⟨hreset, rfl⟩
  case inr.inr.inr.inl => exact .inl ⟨hidle, a, k, i, hturn, hwrite, hin, hslot, rfl⟩
  case inr.inr.inr.inr.inr.inl =>
    obtain ⟨i, rd, v, hc, hi, rfl⟩ := engineStep_x (s := s.afterTurn) hp hengine hne
    exact .inr (.inl ⟨r, i, rd, v, hp, hc, hi, rfl, rfl, rfl⟩)
  case inr.inr.inr.inr.inr.inr => exact .inr (.inr hreset)
  all_goals exact absurd rfl hne

end Sys2Proof.Machine
end

section
/-! Host accesses as steps: transfers that end with an error, accesses outside the window, and what an access
leaves of a running command (rules R51, R54, R55, R60, R65); writes in both phases (rules R59, R60). -/

namespace Sys2Proof.Machine

variable {s : State} {a : Access} {es : List Event} {v : Word}

/-! ## Accesses that are no write the engine performs -/

/-- An access that leaves no command word to accept has its whole effect in its step (rule R62). -/
theorem step_bus_settled {t : State} (hv : s.cfg.valid = true)
    (h : State.busStep { s with script := es } a = .settled t) :
    step { s with script := .bus a :: es } = .next t := by
  rw [step_event (s := { s with script := .bus a :: es }) hv rfl]
  simp only [handleEvent, busEvent, h]

/-- Rules R54, R55: a partial or misaligned transfer changes its response only. -/
theorem busStep_bad (hin : inWindow s.cfg a.addr = true) (hbad : a.be ≠ 0xF#4 ∨ a.addr % 4 ≠ 0) :
    s.busStep a = .settled (s.respond true (if a.write then none else some 0)) := by
  have hnot : ¬ transferOk a.be (portAddr a.addr) = true := by
    rw [transferOk_iff, portAddr_mod_four, not_and_or]
    exact hbad
  rw [State.busStep, if_pos hin, State.transfer, if_neg hnot]

/-- Settles O9: such a transfer is refused before its offset is decoded, in both phases. -/
theorem badTransfersEndWithErr : Obligations.BadTransfersEndWithErr :=
  fun s _ es hv hin hbad => step_bus_settled hv (busStep_bad (s := { s with script := es }) hin hbad)

/-- Rule R51: an access outside the window never reaches the port. -/
theorem busStep_outside (hout : ¬ inWindow s.cfg a.addr = true) : s.busStep a = .settled s := by
  rw [State.busStep, if_neg hout]

/-- Settles O10. -/
theorem accessesOutsideTheWindowDoNothing : Obligations.AccessesOutsideTheWindowDoNothing := by
  intro s a es hv hout
  have hnot : ¬ inWindow s.cfg a.addr = true := by rw [inWindow_iff]; omega
  exact step_bus_settled hv (busStep_outside (s := { s with script := es }) hnot)

/-! ## Accesses while BUSY -/

/-- Rules R58, R60: while BUSY an access writes CTRL.IE, DONE, OVR, its response and the model's own
bookkeeping only. -/
theorem busStep_busy (hb : s.busy = true) (a : Access) :
    ∃ ie done ovr f n resp, s.busStep a = .settled
      { s with ie := ie, done := done, ovr := ovr, recorded := f, fresh := n, resp := resp } := by
  rcases busStep_cases (s := s) a with ⟨r, h⟩ | ⟨f, n, r, h, _⟩ | ⟨_, _, _, h⟩ | ⟨hidle, _⟩ | ⟨hidle, _⟩
  · exact ⟨s.ie, s.done, s.ovr, s.recorded, s.fresh, r, h⟩
  · exact ⟨s.ie, s.done, s.ovr, f, n, r, h⟩
  · obtain ⟨ie, dn, ov, hwrite, _⟩ := writeBusy_eq (s := s) a.wdata (slotAt s.cfg (portAddr a.addr))
    rw [h, hwrite]
    exact ⟨ie, dn, ov, s.recorded, s.fresh, _, rfl⟩
  all_goals exact absurd (hidle.symm.trans hb) Bool.false_ne_true

/-- Settles O23: none of the fields that `busStep_busy` lists is the running command's. -/
theorem hostAccessesKeepTheRunningCommand : Obligations.HostAccessesKeepTheRunningCommand := by
  intro s a es hv hb
  obtain ⟨_, _, _, _, _, _, h⟩ := busStep_busy (s := { s with script := es }) hb a
  exact ⟨_, step_bus_settled hv h, rfl, rfl, rfl, rfl, rfl, rfl, rfl, rfl, rfl, rfl, rfl⟩

/-! ## Writes of the scalar registers -/

/-- The table of rule R51: the scalar registers and their offsets. -/
def scalarSlots : List (Nat × Slot) :=
  [(0x000, .id), (0x004, .cfg), (0x008, .ctrl), (0x00C, .status), (0x010, .cmd), (0x014, .iters),
    (0x018, .bits), (0x01C, .pbits), (0x020, .qbits)]

/-- The table's offsets are aligned, lie in the window and decode to their registers (rule R51). -/
theorem slotAt_scalarSlots {off : Nat} {slot : Slot} (c : Config) (h : (off, slot) ∈ scalarSlots) :
    off < 0x2000 ∧ off % 4 = 0 ∧ ∀ o : BitVec 13, o.toNat = off → slotAt c o = slot := by
  have hoffsets : ∀ p ∈ scalarSlots, p.1 < 0x2000 ∧ p.1 % 4 = 0 := by decide
  obtain ⟨hlt, h4⟩ := hoffsets _ h
  refine ⟨hlt, h4, fun o ho => ?_⟩
  obtain ⟨hid, hcfg, hctrl, hstatus, hcmd, hiters, hbits, hpbits, hqbits⟩ := slotAt_scalar c o
  simp only [scalarSlots, List.mem_cons, Prod.mk.injEq, List.not_mem_nil, or_false] at h
  rcases h with ⟨rfl, rfl⟩ | ⟨rfl, rfl⟩ | ⟨rfl, rfl⟩ | ⟨rfl, rfl⟩ | ⟨rfl, rfl⟩ | ⟨rfl, rfl⟩ | ⟨rfl, rfl⟩ |
    ⟨rfl, rfl⟩ | ⟨rfl, rfl⟩
  · exact hid ho
  · exact hcfg ho
  · exact hctrl ho
  · exact hstatus ho
  · exact hcmd ho
  · exact hiters ho
  · exact hbits ho
  · exact hpbits ho
  · exact hqbits ho

/-- The step of a host write of a scalar register other than CMD while IDLE (rule R59). -/
theorem step_write_scalar_idle {off : Nat} {slot : Slot} (hv : s.cfg.valid = true) (hb : s.busy = false)
    (hslot : (off, slot) ∈ scalarSlots) (hc : slot ≠ .cmd) :
    step { s with script := hostWrite s.cfg off v :: es } =
      .next ((State.writeIdle { s with script := es } v slot).respond false none) := by
  obtain ⟨hlt, h4, hdecode⟩ := slotAt_scalarSlots s.cfg hslot
  exact step_write_idle hv hb hlt h4 hdecode hc

/-- The step of a host write of a scalar register while BUSY (rule R60). -/
theorem step_write_scalar_busy {off : Nat} {slot : Slot} (hv : s.cfg.valid = true) (hb : s.busy = true)
    (hslot : (off, slot) ∈ scalarSlots) :
    step { s with script := hostWrite s.cfg off v :: es } =
      .next ((State.writeBusy { s with script := es } v slot).respond false none) := by
  obtain ⟨hlt, h4, hdecode⟩ := slotAt_scalarSlots s.cfg hslot
  exact step_write_busy hv hb hlt h4 hdecode

/-- The step of a host write of a scalar register on which the two phases agree (rules R59, R60). -/
theorem step_write_scalar {off : Nat} {slot : Slot} (hv : s.cfg.valid = true)
    (hslot : (off, slot) ∈ scalarSlots) (hc : slot ≠ .cmd)
    (hagree : ∀ t : State, t.writeBusy v slot = t.writeIdle v slot) :
    step { s with script := hostWrite s.cfg off v :: es } =
      .next ((State.writeIdle { s with script := es } v slot).respond false none) := by
  cases hb : s.busy with
  | true => rw [step_write_scalar_busy hv hb hslot, hagree]
  | false => exact step_write_scalar_idle hv hb hslot hc

/-- Rules R31, R59, R60: a write of CTRL, in both phases. -/
theorem step_write_ctrl (hv : s.cfg.valid = true) :
    step { s with script := hostWrite s.cfg 0x008 v :: es } =
      .next ((State.writeCtrl { s with script := es } v).respond false none) :=
  step_write_scalar (slot := .ctrl) hv (by decide) (by decide) fun _ => rfl

/-- Rules R32, R59, R60: a write of STATUS, in both phases. -/
theorem step_write_status (hv : s.cfg.valid = true) :
    step { s with script := hostWrite s.cfg 0x00C v :: es } =
      .next ((State.writeStatus { s with script := es } v).respond false none) :=
  step_write_scalar (slot := .status) hv (by decide) (by decide) fun _ => rfl

/-- Rules R59, R60: a write of ID, CFG, PBITS, QBITS or a reserved offset is ignored in both phases. -/
theorem step_write_ignored {off : Nat} (hv : s.cfg.valid = true)
    (hoff : off ∈ [0x000, 0x004, 0x01C, 0x020] ∨ ReservedOffset s.cfg off) :
    step { s with script := hostWrite s.cfg off v :: es } =
      .next { s with script := es, resp := some { err := false, rdata := none } } := by
  rcases hoff with hscalar | hreserved
  · simp only [List.mem_cons, List.not_mem_nil, or_false] at hscalar
    rcases hscalar with rfl | rfl | rfl | rfl
    · exact step_write_scalar (slot := .id) hv (by decide) (by decide) fun _ => rfl
    · exact step_write_scalar (slot := .cfg) hv (by decide) (by decide) fun _ => rfl
    · exact step_write_scalar (slot := .pbits) hv (by decide) (by decide) fun _ => rfl
    · exact step_write_scalar (slot := .qbits) hv (by decide) (by decide) fun _ => rfl
  · obtain ⟨_, hwrite⟩ := reservedOffsetsReadZeroIgnoreWrites s es off v hv hreserved
    exact hwrite

/-! ## Every write -/

/-- Settles O13: ITERS, BITS, the limbs and CMD are the registers whose writes take effect while IDLE only. -/
theorem writesWhileIdle : Obligations.WritesWhileIdle := by
  intro s es v hv hp
  have hb : s.busy = false := (State.not_busy_iff s).2 hp
  refine ⟨step_write_ctrl hv, step_write_status hv, step_write_cmd hv hb, ?iters, ?bits,
    fun k i hi => step_write_limb hv hp hi, fun off => step_write_ignored hv⟩
  case iters => exact step_write_scalar_idle (slot := .iters) hv hb (by decide) (by decide)
  case bits => exact step_write_scalar_idle (slot := .bits) hv hb (by decide) (by decide)

/-- The step of a host write of a limb while BUSY, which is dropped (rule R60). -/
theorem step_write_limb_busy {k : XName} {i : Nat} (hv : s.cfg.valid = true) (hb : s.busy = true)
    (hi : i < s.cfg.nlimbs) :
    step { s with script := hostWrite s.cfg (limbOffset k i) v :: es } =
      .next ((State.dropWrite { s with script := es }).respond false none) := by
  obtain ⟨h128, hslot⟩ := slotAt_of_lt_nlimbs (k := k) hv hi
  obtain ⟨hlt, h4⟩ := limbOffset_lt k h128
  exact step_write_busy hv hb hlt h4 hslot

/-- Settles O14: CTRL, STATUS and the ignored offsets are as while IDLE, and every other write is dropped. -/
theorem writesWhileBusy : Obligations.WritesWhileBusy := by
  intro s es v hv hb
  refine ⟨step_write_ctrl hv, step_write_status hv, fun off hoff => ?dropped,
    fun k i hi => step_write_limb_busy hv hb hi, fun off => step_write_ignored hv⟩
  case dropped =>
    simp only [List.mem_cons, List.not_mem_nil, or_false] at hoff
    rcases hoff with rfl | rfl | rfl
    · exact step_write_scalar_busy (slot := .cmd) hv hb (by decide)
    · exact step_write_scalar_busy (slot := .iters) hv hb (by decide)
    · exact step_write_scalar_busy (slot := .bits) hv hb (by decide)

end Sys2Proof.Machine
end

section
/-! Encoding: the match and mask tests of rule R78 and the words of the encoder, both in terms of the fields of
rule R71. -/

namespace Sys2Proof

variable {c : Word} {i : Instr}

/-! ## A word and its fields (rule R71) -/

/-- No bit of a word lies outside its fields. -/
theorem word_eq_iff {a b : Word} : a = b ↔ cmdFields a = cmdFields b :=
  ⟨congrArg cmdFields, fun h => by rw [← wordOfFields_cmdFields a, h, wordOfFields_cmdFields]⟩

/-- The fields of a command's word by the table of rules R72 to R76. -/
def fieldsOf : Instr → CmdFields
  | .powmod rd ra rb rc =>
    { op := 1, z0 := 0, rd := rd, z1 := 0, ra := ra, z2 := 0, rb := rb, z3 := 0, rc := rc, z4 := 0, bsel := 0, z5 := 0 }
  | .isprime ra =>
    { op := 2, z0 := 0, rd := 0, z1 := 0, ra := ra, z2 := 0, rb := 0, z3 := 0, rc := 0, z4 := 0, bsel := 0, z5 := 0 }
  | .primegen rd sel =>
    { op := 3, z0 := 0, rd := rd, z1 := 0, ra := 0, z2 := 0, rb := 0, z3 := 0, rc := 0, z4 := 0, bsel := sel.code,
      z5 := 0 }
  | .split =>
    { op := 4, z0 := 0, rd := 0, z1 := 0, ra := 0, z2 := 0, rb := 0, z3 := 0, rc := 0, z4 := 0, bsel := 0, z5 := 0 }

/-- The bit patterns of rule R78 put the fields at the places that rule R71 gives them. -/
theorem cmdFields_encode (i : Instr) : cmdFields (encode i) = fieldsOf i := by
  cases i <;>
    simp (disch := decide) only [cmdFields, encode, BitVec.extractLsb'_append_eq_of_le,
      BitVec.extractLsb'_append_eq_of_add_le, BitVec.extractLsb'_eq_self, Nat.sub_self] <;>
    rfl

theorem encode_eq_iff : encode i = c ↔ cmdFields c = fieldsOf i := by
  rw [word_eq_iff, cmdFields_encode, eq_comm]

/-! ## The match and mask tests (rule R78) -/

/-- A field that the mask covers whole is compared whole. -/
theorem and_eq_self_of_ones {n : Nat} {x m : BitVec n} (h : m = BitVec.allOnes n) : x &&& m = x := by
  rw [h, BitVec.and_allOnes]

/-- Word c passes the test of command i's row, and carries i's operands. -/
def Selects (c : Word) : Instr → Prop
  | .powmod rd ra rb rc => c &&& 0xFF8888FF#32 = 0x00000001#32 ∧
      regField c 8 = rd ∧ regField c 12 = ra ∧ regField c 16 = rb ∧ regField c 20 = rc
  | .isprime ra => c &&& 0xFFFF8FFF#32 = 0x00000002#32 ∧ regField c 12 = ra
  | .primegen rd sel => c &&& 0xFCFFF8FF#32 = 0x00000003#32 ∧ regField c 8 = rd ∧ bselField c = some sel
  | .split => c = 0x00000004#32

/-- The test compares exactly the fields that are no operands of the command. -/
theorem selects_iff_fields : Selects c i ↔ cmdFields c = fieldsOf i := by
  cases i <;>
    simp (disch := decide) [Selects, word_eq_iff, cmdFields, fieldsOf, regField, bselField_eq_some,
      BitVec.extractLsb'_and, and_eq_self_of_ones] <;>
    tauto

/-- A word selects a command exactly when it is the command's word. -/
theorem selects_iff_encode : Selects c i ↔ encode i = c := selects_iff_fields.trans encode_eq_iff.symm

/-- The rows' opcodes differ, so a word passes one row's test at most (rule R72). -/
theorem not_match_of_match {m₁ m₂ v₁ v₂ : Word} (h : c &&& m₁ = v₁) (h₁ : m₁ &&& 0xF = 0xF)
    (h₂ : m₂ &&& 0xF = 0xF) (hop : v₁ &&& 0xF ≠ v₂ &&& 0xF) : ¬ c &&& m₂ = v₂ :=
  fun h' => hop ((op_of_match h h₁).symm.trans (op_of_match h' h₂))

/-! ## What the decoder answers (rule R79) -/

theorem decode_of_selects (h : Selects c i) : decode c = .cmd i := by
  cases i with
  | powmod rd ra rb rc =>
    obtain ⟨hmatch, rfl, rfl, rfl, rfl⟩ := h
    exact if_pos hmatch
  | isprime ra =>
    obtain ⟨hmatch, rfl⟩ := h
    have hpowmod := not_match_of_match (m₂ := 0xFF8888FF#32) (v₂ := 0x00000001#32) hmatch
      (by decide) (by decide) (by decide)
    rw [decode, if_neg hpowmod, if_pos hmatch]
  | primegen rd sel =>
    obtain ⟨hmatch, rfl, hsel⟩ := h
    have hpowmod := not_match_of_match (m₂ := 0xFF8888FF#32) (v₂ := 0x00000001#32) hmatch
      (by decide) (by decide) (by decide)
    have hisprime := not_match_of_match (m₂ := 0xFFFF8FFF#32) (v₂ := 0x00000002#32) hmatch
      (by decide) (by decide) (by decide)
    rw [decode, if_neg hpowmod, if_neg hisprime, if_pos hmatch, hsel]
  | split =>
    obtain rfl := h
    decide

theorem selects_of_decode (h : decode c = .cmd i) : Selects c i := by
  unfold decode at h
  split at h
  case isTrue hmatch =>
    cases h
    exact ⟨hmatch, rfl, rfl, rfl, rfl⟩
  split at h
  case isTrue hmatch =>
    cases h
    exact ⟨hmatch, rfl⟩
  split at h
  case isTrue hmatch =>
    split at h
    · rename_i sel hsel
      cases h
      exact ⟨hmatch, rfl, hsel⟩
    · cases h
  split at h
  case isTrue hmatch =>
    cases h
    exact hmatch
  cases h

/-- The decoder answers a command exactly on the words that select it. -/
theorem decode_eq_cmd_iff : decode c = .cmd i ↔ Selects c i := ⟨selects_of_decode, decode_of_selects⟩

theorem decode_eq_illegal_iff : decode c = .illegal ↔ ∀ i, decode c ≠ .cmd i := by
  cases decode c <;> simp

/-- Settles O1: a command's word selects the command. -/
theorem encodedCommandsDecodeBack : Obligations.EncodedCommandsDecodeBack :=
  fun _ => decode_of_selects (selects_iff_encode.2 rfl)

/-- Settles O2: no other word selects the command. -/
theorem decodedWordsEncodeBack : Obligations.DecodedWordsEncodeBack :=
  fun _ _ h => selects_iff_encode.1 (selects_of_decode h)

/-! ## The legal words (rule R77) -/

/-- The field table makes every command's word legal. -/
theorem wordLegal_encode (i : Instr) : wordLegal (encode i) = true := by
  cases i with
  | powmod rd ra rb rc => exact (Laws.CommandWords.powmod rd ra rb rc).1
  | isprime ra => exact (Laws.CommandWords.isprime ra).1
  | primegen rd sel => exact (Laws.CommandWords.primegen rd sel).1
  | split => exact Laws.CommandWords.split.1

/-- The values of BSEL other than 3 are those that name a bit-count source (rule R74). -/
theorem exists_code_eq_iff {b : BitVec 2} : (∃ sel : BitSel, sel.code = b) ↔ b ≠ 3#2 := by
  constructor
  · rintro ⟨sel, rfl⟩
    cases sel <;> decide
  · intro h
    have hb : b = 0#2 ∨ b = 1#2 ∨ b = 2#2 := by bv_omega
    rcases hb with rfl | rfl | rfl
    exacts [⟨.bits, rfl⟩, ⟨.pbits, rfl⟩, ⟨.qbits, rfl⟩]

/-- What the field table leaves open in a legal word are the operands of a command. -/
theorem exists_fieldsOf_of_legal {f : CmdFields} (hop : f.opOk = true) (hzeros : f.zerosOk = true)
    (hunused : f.unusedOk = true) (hbsel : f.bselOk = true) : ∃ i, f = fieldsOf i := by
  obtain ⟨op, z0, rd, z1, ra, z2, rb, z3, rc, z4, bsel, z5⟩ := f
  simp only [CmdFields.zerosOk, Bool.and_eq_true, beq_iff_eq] at hzeros
  obtain ⟨⟨⟨⟨⟨rfl, rfl⟩, rfl⟩, rfl⟩, rfl⟩, rfl⟩ := hzeros
  simp only [CmdFields.opOk, Bool.or_eq_true, beq_iff_eq] at hop
  obtain ((rfl | rfl) | rfl) | rfl := hop
  case inl.inl.inl =>
    obtain rfl : bsel = 0 := by simpa [CmdFields.unusedOk] using hunused
    exact ⟨.powmod rd ra rb rc, rfl⟩
  case inl.inl.inr =>
    obtain ⟨⟨⟨rfl, rfl⟩, rfl⟩, rfl⟩ : ((rd = 0 ∧ rb = 0) ∧ rc = 0) ∧ bsel = 0 := by
      simpa [CmdFields.unusedOk] using hunused
    exact ⟨.isprime ra, rfl⟩
  case inl.inr =>
    obtain ⟨⟨rfl, rfl⟩, rfl⟩ : (ra = 0 ∧ rb = 0) ∧ rc = 0 := by simpa [CmdFields.unusedOk] using hunused
    obtain ⟨sel, rfl⟩ := exists_code_eq_iff.2 (by simpa [CmdFields.bselOk] using hbsel)
    exact ⟨.primegen rd sel, rfl⟩
  case inr =>
    obtain ⟨⟨⟨⟨rfl, rfl⟩, rfl⟩, rfl⟩, rfl⟩ : (((rd = 0 ∧ ra = 0) ∧ rb = 0) ∧ rc = 0) ∧ bsel = 0 := by
      simpa [CmdFields.unusedOk] using hunused
    exact ⟨.split, rfl⟩

/-- The legal words are the words of the commands. -/
theorem wordLegal_iff : wordLegal c = true ↔ ∃ i, encode i = c := by
  constructor
  · intro h
    simp only [wordLegal, Bool.and_eq_true] at h
    obtain ⟨⟨⟨hop, hzeros⟩, hunused⟩, hbsel⟩ := h
    obtain ⟨i, hi⟩ := exists_fieldsOf_of_legal hop hzeros hunused hbsel
    exact ⟨i, encode_eq_iff.2 hi⟩
  · rintro ⟨i, rfl⟩
    exact wordLegal_encode i

/-- Settles O3: both say that the word is no command's word. -/
theorem illegalWordsAreThoseOfTheFieldTable : Obligations.IllegalWordsAreThoseOfTheFieldTable := by
  intro c
  calc decode c = .illegal
      ↔ ∀ i, decode c ≠ .cmd i := decode_eq_illegal_iff
    _ ↔ ¬ ∃ i, encode i = c := by simp only [ne_eq, decode_eq_cmd_iff, selects_iff_encode, not_exists]
    _ ↔ wordLegal c = false := by rw [← wordLegal_iff, Bool.not_eq_true]

/-- Settles O4: each row is the command's case of `Selects`, with the word's own fields as its operands. -/
theorem matchAndMaskSelectTheCommand : Obligations.MatchAndMaskSelectTheCommand := by
  intro c
  refine ⟨?powmod, ?isprime, ?primegen, ?split⟩
  case powmod => exact ⟨fun h => decode_of_selects ⟨h, rfl, rfl, rfl, rfl⟩, fun h => (selects_of_decode h).1⟩
  case isprime => exact ⟨fun h => decode_of_selects ⟨h, rfl⟩, fun h => (selects_of_decode h).1⟩
  case primegen =>
    rw [← exists_code_eq_iff]
    constructor
    · rintro ⟨hmatch, sel, hsel⟩
      exact ⟨sel, hsel, decode_of_selects ⟨hmatch, rfl, bselField_eq_some.2 hsel.symm⟩⟩
    · rintro ⟨sel, hsel, hdecode⟩
      exact ⟨(selects_of_decode hdecode).1, sel, hsel⟩
  case split =>
    rw [and_eq_self_of_ones (by decide)]
    exact (decode_eq_cmd_iff (i := .split)).symm

/-- Settles O5: the decoder evaluates on each of the twelve words of rule R82. -/
theorem specEncodingExamplesDecode : Obligations.SpecEncodingExamplesDecode := by
  unfold Obligations.SpecEncodingExamplesDecode
  decide

end Sys2Proof
end

section
/-! The length of POWMOD's loop (rule R91), and POWMOD with M = 0 (rule R92). -/

namespace Sys2Proof.Machine

/-! ## The loop's iterations -/

/-- POWMOD's first engine step with M >= 1 enters the loop (rule R90). -/
theorem powmodTick_start {w : PowWork} (hl : w.loop = none) (hm : w.m ≠ 0) :
    powmodTick w = .go { w with loop := some (powStart w.b w.e) } := by
  simp [powmodTick, hl, hm]

/-- With exponent bits left, an engine step of POWMOD is one iteration of the loop (rule R90). -/
theorem powmodTick_iter (w : PowWork) {l : PowLoop} (he : l.e ≠ 0) :
    powmodTick { w with loop := some l } = .go { w with loop := some (powIter w.m l) } := by
  simp [powmodTick, he]

/-- Each iteration shifts the lowest bit out of the exponent (rule R91). -/
theorem iterate_powIter_e (m j : Nat) (l : PowLoop) : ((powIter m)^[j] l).e = l.e / 2 ^ j := by
  induction j generalizing l with
  | zero => simp
  | succ j ih =>
    calc ((powIter m)^[j + 1] l).e
        = (powIter m l).e / 2 ^ j := ih (powIter m l)
      _ = l.e / 2 / 2 ^ j := rfl
      _ = l.e / 2 ^ (j + 1) := by rw [Nat.div_div_eq_div_mul, ← pow_succ']

/-- `bitLength x` is the least number of halvings that take x to 0 (rule R10). -/
theorem div_two_pow_eq_zero_iff (x j : Nat) : x / 2 ^ j = 0 ↔ bitLength x ≤ j := by
  rw [bitLength_le_iff, Nat.div_eq_zero_iff_lt (Nat.two_pow_pos j)]

/-- Inside the loop, as many engine steps as the exponent has bits, or fewer, are iterations (rule R91). -/
theorem runTicks_iterations (w : PowWork) {j : Nat} {l : PowLoop} (hj : j ≤ bitLength l.e) :
    runTicks powmodTick j { w with loop := some l } =
      .go { w with loop := some ((powIter w.m)^[j] l) } := by
  induction j generalizing l with
  | zero => exact runTicks_zero _
  | succ j ih =>
    have he : l.e ≠ 0 := fun h0 => by rw [h0, bitLength_zero] at hj; omega
    have hhalf : bitLength (powIter w.m l).e + 1 = bitLength l.e := bitLength_half he
    rw [runTicks_go (powmodTick_iter w he)]
    exact ih (by omega)

/-- Settles O28: the check enters the loop, whose j-th iteration leaves E div 2^j. -/
theorem powmodLoopRunsBitlengthTimes : Obligations.PowmodLoopRunsBitlengthTimes := by
  intro w j hl hm hj
  have he : ((powIter w.m)^[j] (powStart w.b w.e)).e = w.e / 2 ^ j := iterate_powIter_e _ _ _
  refine ⟨(powIter w.m)^[j] (powStart w.b w.e), ?_, he, ?_⟩
  · rw [Nat.add_comm, runTicks_go (powmodTick_start hl hm)]
    exact runTicks_iterations w hj
  · rw [he, div_two_pow_eq_zero_iff]
    omega

/-! ## M = 0 -/

/-- Settles O27: the check's error is the run's outcome, and it is raised on a free port. -/
theorem powmodModulusZero : Obligations.PowmodModulusZero := by
  intro s rd ra rb rc w hp hd hl hm
  rw [exec_powmod_busy hp, engineRun_free hd, powmod_run_zero w hl hm]
  rfl

end Sys2Proof.Machine
end

section
/-! ISPRIME of the tests that come first and of K = 0, of 3, and up to its first witness draw (rules R111 to
R113, R118 to R121). -/

namespace Sys2Proof.Machine

variable {c : Config} {s : State} {ra : XName} {w : MrWork}

/-! ## The witness bound (rules R119, R120) -/

theorem mrBoundOffset_bounds (c : Config) : 3 ≤ c.mrBoundOffset.value ∧ c.mrBoundOffset.value ≤ 4 := by
  cases c.mrBoundOffset <;> decide

/-- The bound as the port carries it: a number, 0 where the range is empty (rule R119). -/
theorem witnessBound_toNat (c : Config) (n : Nat) :
    (witnessBound c n).toNat = n - c.mrBoundOffset.value :=
  Int.toNat_sub _ _

/-- The witness range is empty exactly for the candidates up to the offset (rule R120). -/
theorem witnessBound_pos_iff {n : Nat} : 0 < witnessBound c n ↔ c.mrBoundOffset.value < n := by
  unfold witnessBound
  omega

theorem witnessBound_three (c : Config) : witnessBound c 3 ≤ 0 := by
  have hv := mrBoundOffset_bounds c
  rw [← not_lt, witnessBound_pos_iff]
  omega

theorem witnessBound_pos_of_five_le (c : Config) {n : Nat} (h : 5 ≤ n) : 0 < witnessBound c n := by
  have hv := mrBoundOffset_bounds c
  rw [witnessBound_pos_iff]
  omega

/-! ## The head of a round (rules R113, R118 to R120) -/

theorem mrRound_of_rounds_done (h : w.k < w.round) : mrRound c w = .ret true :=
  if_pos h

theorem mrRound_of_empty_range (hk : w.round ≤ w.k) (hb : witnessBound c w.n ≤ 0) :
    mrRound c w = .err .rngBound := by
  rw [mrRound, if_neg (not_lt.2 hk), if_pos hb]

theorem mrRound_of_witness (hk : w.round ≤ w.k) (hb : 0 < witnessBound c w.n) :
    mrRound c w = .ask (.below (w.n - c.mrBoundOffset.value)) w := by
  rw [mrRound, if_neg (not_lt.2 hk), if_neg (not_le.2 hb), witnessBound_toNat]

/-! ## mr from its start, for ISPRIME and for a candidate of PRIMEGEN -/

/-- With K = 0 no round is made (rules R118, R121). -/
theorem mr_run_no_rounds (hp : w.pt = .start) (h3 : 3 ≤ w.n) (hodd : w.n % 2 = 1) (hk : w.k = 0) :
    runTicks (mrTick c) (mrBudget w) w = .ret true := by
  obtain ⟨e, r, _, hrun⟩ := mr_run_start (c := c) hp h3 hodd
  rw [hrun]
  exact mrRound_of_rounds_done (hk ▸ Nat.one_pos)

/-- A candidate of 3 has no witness to draw (rule R120). -/
theorem mr_run_three (hp : w.pt = .start) (hn : w.n = 3) (hk : 1 ≤ w.k) :
    runTicks (mrTick c) (mrBudget w) w = .err .rngBound := by
  obtain ⟨e, r, _, hrun⟩ := mr_run_start (c := c) hp (by omega) (by omega)
  rw [hrun]
  exact mrRound_of_empty_range hk (hn ▸ witnessBound_three c)

/-- Every other odd candidate comes to its first witness draw, with N-1 = 2^e * r (rules R112, R119). -/
theorem mr_run_first_witness (hp : w.pt = .start) (h5 : 5 ≤ w.n) (hodd : w.n % 2 = 1) (hk : 1 ≤ w.k) :
    ∃ e r, 2 ^ e * r = w.n - 1 ∧ r % 2 = 1 ∧ 1 ≤ e ∧
      runTicks (mrTick c) (mrBudget w) w =
        .ask (.below (w.n - c.mrBoundOffset.value)) { w with s := e, r := r, round := 1, pt := .round } := by
  obtain ⟨e, r, ⟨_, _, heq, hr, he⟩, hrun⟩ := mr_run_start (c := c) hp (by omega) hodd
  refine ⟨e, r, heq, hr, he, ?_⟩
  rw [hrun]
  exact mrRound_of_witness hk (witnessBound_pos_of_five_le c h5)

/-- The budget suffices: from its start mr comes to a draw or to its end in one merged run (rule R203). -/
theorem mr_run_start_stops (hp : w.pt = .start) (w' : MrWork) :
    runTicks (mrTick c) (mrBudget w) w ≠ .go w' := by
  by_cases h : w.n < 3 ∨ w.n % 2 = 0
  · rw [mr_run_early hp h]
    nofun
  · obtain ⟨e, r, _, hrun⟩ := mr_run_start (c := c) hp (by omega) (by omega)
    rw [hrun]
    exact mrRound_stops _ _

/-! ## ISPRIME from its start -/

/-- With no request on the port, ISPRIME comes to where mr's run comes. -/
theorem exec_isprime_free (hp : s.phase = .busy (.isprime ra w)) (hd : s.draw = none) :
    exec (.isprime ra) s = .next (s.settle (.isprime ra) (fun res t => t.writePrime res)
      (runTicks (mrTick s.cfg) (mrBudget w) w)) := by
  rw [exec_isprime_busy hp, engineRun_free hd]

/-- Settles O29: the three tests take one engine step, whose result is written. -/
theorem isprimeEarlyOutcomes : Obligations.IsprimeEarlyOutcomes := by
  intro s ra w hp hd hpt hn
  rw [exec_isprime_free hp hd, mr_run_early hpt (by omega)]
  rfl

/-- Settles O30: the decomposition is followed by the end of the rounds. -/
theorem isprimeWithZeroRounds : Obligations.IsprimeWithZeroRounds := by
  intro s ra w hp hd hpt h3 hodd hk
  rw [exec_isprime_free hp hd, mr_run_no_rounds hpt h3 hodd hk]
  rfl

/-- Settles O31: the bound of 3 is at most 0, and the run on 3 ends at the check of the bound; K = 0 is
O30. -/
theorem isprimeOfThreeHasNoWitness : Obligations.IsprimeOfThreeHasNoWitness := by
  refine ⟨fun c => ⟨witnessBound_three c, fun n h5 _ => witnessBound_pos_of_five_le c h5⟩,
    fun s ra w hp hd hpt hn => ⟨fun hk => ?_, fun hk => ?_⟩⟩
  · rw [exec_isprime_free hp hd, mr_run_three hpt hn hk]
    rfl
  · exact isprimeWithZeroRounds s ra w hp hd hpt (by omega) (by omega) hk

/-- Settles O32: the run from the start raises the first witness draw. -/
theorem isprimeRequestsTheFirstWitness : Obligations.IsprimeRequestsTheFirstWitness := by
  intro s ra w hp hd hpt h5 hodd hk
  obtain ⟨e, r, heq, hr, he, hrun⟩ := mr_run_first_witness (c := s.cfg) hpt h5 hodd hk
  refine ⟨e, r, heq, hr, he, ?_⟩
  rw [exec_isprime_free hp hd, hrun]
  rfl

end Sys2Proof.Machine
end

section
/-! ISPRIME from the answer of a witness draw on, and what its results say about N (rules R113 to R119, R124
to R126). -/

namespace Sys2Proof.Machine

variable {s t : State} {ra : XName} {w : MrWork}

/-! ## A round -/

/-- What mr does after a round that proves nothing, at the head of a round (rules R113, R118, R119). -/
theorem mrAfterPass_of_round {c : Config} (hpt : w.pt = .round) :
    mrAfterPass c w = if w.round = w.k then .ret true
      else .ask (.below (w.n - c.mrBoundOffset.value)) { w with round := w.round + 1 } := by
  rw [mrAfterPass, witnessBound_toNat, ← hpt]

/-- A lawful answer of the witness draw is taken, and ISPRIME comes to where the round leads. -/
theorem exec_isprime_answer {v : Nat} (hp : s.phase = .busy (.isprime ra w)) (hpt : w.pt = .round)
    (hk : w.round ≤ w.k) (hd : s.draw = some (.below (w.n - s.cfg.mrBoundOffset.value)))
    (ha : s.ack = some v) (hv : v < w.n - s.cfg.mrBoundOffset.value) :
    exec (.isprime ra) s = .next (State.settle (.isprime ra) (fun res t => t.writePrime res)
      { s with draw := none, ack := none }
      (if roundPasses s.cfg.mrEarlyExit w.n w.s w.r (v + 2) then mrAfterPass s.cfg w else .ret false)) := by
  rw [exec_isprime_busy hp, engineRun_lawful hd ha (decide_eq_true hv),
    mr_run_answer hpt v hk (witnessBound_pos_iff.2 (by omega))]

/-- Settles O33: each of the three outcomes of a round is settled; the next round's request is the one that
stood. -/
theorem isprimeRoundOutcome : Obligations.IsprimeRoundOutcome := by
  intro s ra w v hp hpt hk hd ha hv
  rw [exec_isprime_answer hp hpt hk hd ha hv]
  congr 1
  by_cases hpass : roundPasses s.cfg.mrEarlyExit w.n w.s w.r (v + 2)
  · rw [if_pos hpass, if_pos hpass, mrAfterPass_of_round hpt]
    by_cases hlast : w.round = w.k
    · rw [if_pos hlast, if_pos hlast]
      rfl
    · rw [if_neg hlast, if_neg hlast, State.settle, ← hd]
  · rw [if_neg hpass, if_neg hpass]
    rfl

/-! ## Primes (rules R124, R126) -/

/-- From a state that meets the invariant, ISPRIME completes without an error only with a result that mr can
give for N. -/
theorem exec_isprime_result (hI : s.Inv) (hp : s.phase = .busy (.isprime ra w))
    (h : exec (.isprime ra) s = .next t) (hidle : t.phase = .idle) (hok : t.errcode = .noError) :
    MrResult s.cfg w.n t.prime := by
  obtain ⟨hwork, hdraw⟩ := hI.runningOk _ hp
  rw [exec_isprime_busy hp] at h
  cases h
  rcases engineRun_sat (s := s) (tick := mrTick s.cfg) (resume := mrResume) (budget := mrBudget)
    (put := .isprime ra) (write := fun res t => t.writePrime res) (w := w)
    (fun w h => mrTick_sat w h) ⟨hwork, rfl, rfl⟩
    (fun d v h hl => mrResume_ok ⟨hwork, rfl, rfl⟩ (h ▸ hdraw) hl) (fun _ _ _ => rfl) with
    ⟨ht, _⟩ | ⟨_, _, _, _, ht⟩ | ⟨_, _, _, _, _, ht⟩ | ⟨b, hb, ht⟩ | ⟨e, ⟨he, _⟩, ht⟩ | ⟨ht, _⟩
  · rw [ht, hp] at hidle
    cases hidle
  · rw [ht] at hidle
    cases hidle
  · rw [ht] at hidle
    cases hidle
  · rw [ht]
    exact hb
  · rw [ht, he] at hok
    cases hok
  · rw [ht] at hok
    cases hok

/-- Settles O34: at MR_EARLY_EXIT = 1 mr has no result 0 for a prime. -/
theorem primesAreNeverReportedComposite : Obligations.PrimesAreNeverReportedComposite := by
  intro s t ra w hI hearly hp hprime h hidle hok
  have hres := exec_isprime_result hI hp h hidle hok
  by_contra hfalse
  rw [MrResult, if_neg hfalse] at hres
  exact hres hearly hprime

/-! ## Small composites (rule R125) -/

/-- Every witness in [2, 13] proves 15 = 2 * 7 + 1 composite. -/
theorem rounds_of_15_fail : ∀ earlyExit, ∀ v < 12, roundPasses earlyExit 15 1 7 (v + 2) = false := by
  decide

/-- Every witness in [2, 19] proves 21 = 2^2 * 5 + 1 composite. -/
theorem rounds_of_21_fail : ∀ earlyExit, ∀ v < 18, roundPasses earlyExit 21 2 5 (v + 2) = false := by
  decide

/-- The decomposition of rule R112 and the range of rule R119 leave no round of 15 or 21 that passes. -/
theorem small_composite_rounds_fail {c : Config} {n e r v : Nat} (hn : n = 15 ∨ n = 21)
    (heq : 2 ^ e * r = n - 1) (hr : r % 2 = 1) (hv : v < n - c.mrBoundOffset.value) :
    roundPasses c.mrEarlyExit n e r (v + 2) = false := by
  have hoffset := mrBoundOffset_bounds c
  rcases hn with rfl | rfl
  · obtain ⟨rfl, rfl⟩ : e = 1 ∧ r = 7 := decomposition_unique heq hr rfl
    exact rounds_of_15_fail _ v (by omega)
  · obtain ⟨rfl, rfl⟩ : e = 2 ∧ r = 5 := decomposition_unique heq hr rfl
    exact rounds_of_21_fail _ v (by omega)

/-- Settles O35: 4 is even (O29); 15 and 21 request a witness (O32), with which the first round fails
(O33). -/
theorem smallCompositesAreReportedComposite : Obligations.SmallCompositesAreReportedComposite := by
  intro s ra w hp hd hpt hn hk
  by_cases h4 : w.n = 4
  · refine ⟨_, isprimeEarlyOutcomes s ra w hp hd hpt (by omega), fun _ => ⟨rfl, rfl, ?_⟩,
      fun h => absurd h4 h⟩
    exact decide_eq_false (by omega)
  · have hn' : w.n = 15 ∨ w.n = 21 := by simpa [h4] using hn
    obtain ⟨e, r, heq, hr, _, hexec⟩ :=
      isprimeRequestsTheFirstWitness s ra w hp hd hpt (by omega) (by omega) hk
    refine ⟨_, hexec, fun h => absurd h h4, fun _ => ⟨rfl, fun v hv => ?_⟩⟩
    have hround := isprimeRoundOutcome { s with
        phase := .busy (.isprime ra { w with s := e, r := r, round := 1, pt := .round })
        draw := some (.below (w.n - s.cfg.mrBoundOffset.value)), ack := some v }
      ra _ v rfl rfl hk rfl rfl hv
    rw [if_neg (by simp [small_composite_rounds_fail hn' heq hr hv])] at hround
    exact ⟨_, hround, rfl, rfl, rfl⟩

end Sys2Proof.Machine
end

section
/-! PRIMEGEN from the answer of a candidate draw on: the start of the candidate's test (rules R144 to
R149). -/

namespace Sys2Proof.Machine

variable {s : State} {rd : XName} {sel : BitSel} {w : GenWork} {v : Nat}

/-- A candidate of exactly bits + 1 bits is taken, and PRIMEGEN does what it makes of the outcome of the
candidate's test (rules R140, R145). -/
theorem exec_primegen_candidate (hp : s.phase = .busy (.primegen rd sel w)) (hpt : w.pt = .draw)
    (hd : s.draw = some (.bits (w.bits + 1))) (ha : s.ack = some v) (hlo : 2 ^ w.bits ≤ v)
    (hhi : v < 2 ^ (w.bits + 1)) :
    exec (.primegen rd sel) s = .next (State.settle (.primegen rd sel) (fun v t => t.writeX rd v)
      { s with draw := none, ack := none }
      (genAfterTest w v (runTicks (mrTick s.cfg) (mrBudget (mrStart v w.k)) (mrStart v w.k)))) := by
  have hlawful : (Draw.bits (w.bits + 1)).lawful v = true := by simp [Draw.lawful, hlo, hhi]
  have hresume : genResume w v = { w with pt := .test (mrStart v w.k) } := by rw [genResume, hpt]
  have hafter : ∀ T, genAfterTest { w with pt := .test (mrStart v w.k) } v T = genAfterTest w v T := by
    rintro (_ | _ | _ | _) <;> rfl
  rw [exec_primegen_busy hp, engineRun_lawful hd ha hlawful, hresume,
    gen_run_test _ (mrStart v w.k) rfl (mr_run_start_stops rfl)]
  exact congrArg _ (congrArg _ (hafter _))

/-- Settles O41: what PRIMEGEN makes of each outcome of mr's run from its start. -/
theorem primegenCandidateOutcome : Obligations.PrimegenCandidateOutcome := by
  intro s rd sel w v hp hpt hd ha hlo hhi
  rw [exec_primegen_candidate hp hpt hd ha hlo hhi]
  refine ⟨fun hv => ?reject, fun hv => ?accept, fun ⟨hv, hk⟩ => ?three, fun ⟨h5, hodd, hk⟩ => ?witness⟩
  case reject =>
    have hrun : runTicks (mrTick s.cfg) (mrBudget (mrStart v w.k)) (mrStart v w.k) = .ret false :=
      (mr_run_early rfl (show v < 3 ∨ v % 2 = 0 by omega)).trans
        (congrArg _ (decide_eq_false (show v ≠ 2 by omega)))
    rw [hrun, genAfterTest, State.settle, ← hpt, ← hp, ← hd]
  case accept =>
    have hrun : runTicks (mrTick s.cfg) (mrBudget (mrStart v w.k)) (mrStart v w.k) = .ret true := by
      rcases hv with rfl | ⟨hk, h3, hodd⟩
      · exact mr_run_early rfl (.inl (show 2 < 3 by decide))
      · exact mr_run_no_rounds rfl h3 hodd hk
    rw [hrun]
    rfl
  case three =>
    rw [mr_run_three rfl hv hk]
    rfl
  case witness =>
    obtain ⟨e, r, heq, hr, he, hrun⟩ :=
      mr_run_first_witness (c := s.cfg) (w := mrStart v w.k) rfl h5 hodd hk
    refine ⟨e, r, heq, hr, he, ?_⟩
    rw [hrun]
    rfl

end Sys2Proof.Machine
end

section
/-! The draw laws and RNG_LAW (rules R130, R163), and SPLIT from its start and from its answer (rules R134 to
R137). -/

namespace Sys2Proof.Machine

variable {s : State} {w : SplitWork}

/-! ## The draw laws -/

/-- Rule R130: the law of `Draw_below(b)`. -/
theorem Draw.lawful_below_iff (b v : Nat) : (Draw.below b).lawful v = true ↔ v < b :=
  decide_eq_true_iff

/-- Rule R130: the law of `Draw_bits(k)`. -/
theorem Draw.lawful_bits_iff (k v : Nat) : (Draw.bits k).lawful v = true ↔ 2 ^ (k - 1) ≤ v ∧ v < 2 ^ k := by
  rw [Draw.lawful, Bool.and_eq_true, decide_eq_true_iff, decide_eq_true_iff]

/-- An answer that breaks its law ends every command alike (rules R130, R163). -/
theorem exec_lawless {r : Running} {i : Instr} {d : Draw} {v : Nat} (hp : s.phase = .busy r)
    (hc : r.command = some i) (hd : s.draw = some d) (ha : s.ack = some v) (hl : d.lawful v = false) :
    exec i s = .next (s.raiseError .rngLaw) := by
  cases r with
  | illegal => cases hc
  | powmod rd ra rb rc w => cases hc; rw [exec_powmod_busy hp, engineRun_lawless hd ha hl]
  | isprime ra w => cases hc; rw [exec_isprime_busy hp, engineRun_lawless hd ha hl]
  | primegen rd sel w => cases hc; rw [exec_primegen_busy hp, engineRun_lawless hd ha hl]
  | split w => cases hc; rw [exec_split_busy hp, engineRun_lawless hd ha hl]

/-- Settles O47: the law is checked before the command sees the answer. -/
theorem lawBreakingAnswersEndTheCommand : Obligations.LawBreakingAnswersEndTheCommand :=
  ⟨Draw.lawful_below_iff, Draw.lawful_bits_iff, fun _ _ _ _ _ => exec_lawless⟩

/-! ## SPLIT -/

theorem splitTick_few_bits (hr : w.rr = none) (h : w.nbits < 2) : splitTick w = .err .rngBound := by
  simp only [splitTick, hr]
  exact if_pos (by omega)

theorem splitTick_request (hr : w.rr = none) (h : 2 ≤ w.nbits) :
    splitTick w = .ask (.below (w.nbits / 2)) w := by
  simp only [splitTick, hr]
  exact if_neg (by omega)

/-- With no request on the port, SPLIT takes its one engine step. -/
theorem exec_split_free (hp : s.phase = .busy (.split w)) (hd : s.draw = none)
    (hstop : ∀ w', splitTick w ≠ .go w') :
    exec .split s = .next (s.settle .split (fun r t => t.writeSplit r) (splitTick w)) := by
  rw [exec_split_busy hp, engineRun_free hd, splitBudget, runTicks_stop hstop]

/-- Settles O38: h1 = 0 is an error of the first step. -/
theorem splitOfFewerThanTwoBits : Obligations.SplitOfFewerThanTwoBits := by
  intro s w hp hd hr h
  have htick := splitTick_few_bits hr h
  rw [exec_split_free hp hd (by rw [htick]; nofun), htick]
  rfl

/-- Settles O36: the first step raises the request, and the engine stays where it is. -/
theorem splitRequestsItsDraw : Obligations.SplitRequestsItsDraw := by
  intro s w hp hd hr h
  have htick := splitTick_request hr h
  rw [exec_split_free hp hd (by rw [htick]; nofun), htick, State.settle, ← hp]

/-- A lawful answer is taken, and SPLIT completes with the two results of rule R135. -/
theorem exec_split_answer {v : Nat} (hp : s.phase = .busy (.split w))
    (hd : s.draw = some (.below (w.nbits / 2))) (ha : s.ack = some v) (hv : v < w.nbits / 2) :
    exec .split s = .next (s.writeSplit (splitP w.nbits v, splitQ w.nbits v)).complete := by
  rw [exec_split_busy hp, engineRun_lawful hd ha ((Draw.lawful_below_iff _ _).2 hv)]
  rfl

/-- Settles O37: the results of `split_exact` fit 32 bits, and the ranges follow from rr < h1. -/
theorem splitWritesPbitsAndQbits : Obligations.SplitWritesPbitsAndQbits := by
  intro s w v hp _ h2 h32 hd ha hv
  obtain ⟨hP, hQ⟩ := split_exact hv
  have hp32 : (BitVec.ofNat 32 (splitP w.nbits v)).toNat = splitP w.nbits v := Nat.mod_eq_of_lt (by omega)
  have hq32 : (BitVec.ofNat 32 (splitQ w.nbits v)).toNat = splitQ w.nbits v := Nat.mod_eq_of_lt (by omega)
  refine ⟨BitVec.ofNat 32 (splitP w.nbits v), BitVec.ofNat 32 (splitQ w.nbits v),
    exec_split_answer hp hd ha hv, ?_⟩
  rw [hp32, hq32]
  omega

end Sys2Proof.Machine
end

section
/-! PRIMEGEN from its start, from the answer of a witness draw on, and its result (rules R140 to R153). -/

namespace Sys2Proof.Machine

variable {c : Config} {s t : State} {rd : XName} {sel : BitSel} {w : GenWork}

/-! ## PRIMEGEN from its start (rules R142 to R144) -/

theorem genTick_out_of_range (hpt : w.pt = .check) (h : c.width ≤ w.bits) : genTick c w = .err .range := by
  simp only [genTick, hpt]
  exact if_pos (by omega)

theorem genTick_in_range (hpt : w.pt = .check) (h : w.bits < c.width) :
    genTick c w = .go { w with pt := .draw } := by
  simp only [genTick, hpt]
  exact if_neg (by omega)

theorem genTick_draw (hpt : w.pt = .draw) : genTick c w = .ask (.bits (w.bits + 1)) w := by
  simp only [genTick, hpt]

theorem genBudget_before_test (hpt : w.pt = .check ∨ w.pt = .draw) : genBudget w = 2 := by
  rcases hpt with hpt | hpt <;> simp [genBudget, hpt]

/-- Before its range check, or after it, PRIMEGEN of a number that fits comes to the request of a candidate. -/
theorem gen_run_request (hpt : w.pt = .check ∨ w.pt = .draw) (h : w.bits < c.width) :
    runTicks (genTick c) (genBudget w) w = .ask (.bits (w.bits + 1)) { w with pt := .draw } := by
  rw [genBudget_before_test hpt]
  rcases hpt with hpt | hpt
  · rw [runTicks_go (genTick_in_range hpt h)]
    exact runTicks_ask (genTick_draw rfl) 0
  · rw [← hpt]
    exact runTicks_ask (genTick_draw hpt) 1

/-- Settles O39: the range check is the first engine step. -/
theorem primegenOutOfRange : Obligations.PrimegenOutOfRange := by
  intro s rd sel w hp hd hpt h
  rw [exec_primegen_busy hp, engineRun_free hd, genBudget_before_test (.inl hpt),
    runTicks_err (genTick_out_of_range hpt h)]
  rfl

/-- With no request on the port, PRIMEGEN raises the request of a candidate (rules R143, R144). -/
theorem exec_primegen_request (hp : s.phase = .busy (.primegen rd sel w)) (hd : s.draw = none)
    (hpt : w.pt = .check ∨ w.pt = .draw) (h : w.bits < s.cfg.width) :
    exec (.primegen rd sel) s = .next
      { s with phase := .busy (.primegen rd sel { w with pt := .draw }), draw := some (.bits (w.bits + 1)) } := by
  rw [exec_primegen_busy hp, engineRun_free hd, gen_run_request hpt h]
  rfl

/-- Settles O40: PRIMEGEN at its check. -/
theorem primegenRequestsACandidate : Obligations.PrimegenRequestsACandidate :=
  fun _ _ _ _ hp hd hpt h => exec_primegen_request hp hd (.inl hpt) h

/-! ## A round of a candidate's test (rules R145, R146) -/

/-- The budget suffices: a round comes to a draw or to its end in one merged run (rule R203). -/
theorem mrAfterPass_stops (m m' : MrWork) : mrAfterPass c m ≠ .go m' := by
  unfold mrAfterPass
  split <;> nofun

/-- A lawful witness is taken, and PRIMEGEN does what it makes of the outcome of the round (rules R140,
R145). -/
theorem exec_primegen_witness {m : MrWork} {v : Nat} (hp : s.phase = .busy (.primegen rd sel w))
    (hpt : w.pt = .test m) (hround : m.pt = .round) (hk : m.round ≤ m.k)
    (hd : s.draw = some (.below (m.n - s.cfg.mrBoundOffset.value))) (ha : s.ack = some v)
    (hv : v < m.n - s.cfg.mrBoundOffset.value) :
    exec (.primegen rd sel) s = .next (State.settle (.primegen rd sel) (fun v t => t.writeX rd v)
      { s with draw := none, ack := none }
      (genAfterTest w m.n (if roundPasses s.cfg.mrEarlyExit m.n m.s m.r (v + 2) then mrAfterPass s.cfg m
        else .ret false))) := by
  have hrun := mr_run_answer (c := s.cfg) hround v hk (witnessBound_pos_iff.2 (by omega))
  have hstop : ∀ m', runTicks (mrTick s.cfg) (mrBudget (mrResume m v)) (mrResume m v) ≠ .go m' := by
    intro m'
    rw [hrun]
    split
    · exact mrAfterPass_stops m m'
    · nofun
  have hresume : genResume w v = { w with pt := .test (mrResume m v) } := by rw [genResume, hpt]
  have hn : (mrResume m v).n = m.n := by rw [mrResume, hround]
  have hafter : ∀ T, genAfterTest { w with pt := .test (mrResume m v) } m.n T = genAfterTest w m.n T := by
    rintro (_ | _ | _ | _) <;> rfl
  rw [exec_primegen_busy hp, engineRun_lawful hd ha ((Draw.lawful_below_iff _ _).2 hv), hresume,
    gen_run_test _ (mrResume m v) rfl hstop, hrun, hn, hafter]

/-- Settles O42: each of the three outcomes of a round is settled; the next round's request is the one that
stood. -/
theorem primegenRoundOutcome : Obligations.PrimegenRoundOutcome := by
  intro s rd sel w m v hp hpt hround hk hd ha hv
  rw [exec_primegen_witness hp hpt hround hk hd ha hv]
  congr 1
  by_cases hpass : roundPasses s.cfg.mrEarlyExit m.n m.s m.r (v + 2)
  · rw [if_pos hpass, if_pos hpass, mrAfterPass_of_round hround]
    by_cases hlast : m.round = m.k
    · rw [if_pos hlast, if_pos hlast]
      rfl
    · rw [if_neg hlast, if_neg hlast, genAfterTest, State.settle, ← hd]
  · rw [if_neg hpass, if_neg hpass]
    rfl

/-! ## The result (rules R142, R150) -/

/-- From a state that meets the invariant, PRIMEGEN completes without an error only by writing a result that
its engine steps can give. -/
theorem exec_primegen_result (hI : s.Inv) (hp : s.phase = .busy (.primegen rd sel w))
    (h : exec (.primegen rd sel) s = .next t) (hidle : t.phase = .idle) (hok : t.errcode = .noError) :
    ∃ v, GenResult w.bits v ∧ t = (s.writeX rd v).complete := by
  obtain ⟨hwork, hdraw⟩ := gen_of_running (hI.runningOk _ hp)
  rw [exec_primegen_busy hp] at h
  cases h
  rcases engineRun_sat (s := s) (tick := genTick s.cfg) (resume := genResume) (budget := genBudget)
    (put := .primegen rd sel) (write := fun v t => t.writeX rd v) (w := w)
    (fun w h => genTick_sat w h) hwork (fun d v h hl => genResume_ok hwork (h ▸ hdraw) hl)
    (fun _ _ _ => rfl) with
    ⟨ht, _⟩ | ⟨_, _, _, _, ht⟩ | ⟨_, _, _, _, _, ht⟩ | ⟨v, hv, ht⟩ | ⟨e, he, ht⟩ | ⟨ht, _⟩
  · rw [ht, hp] at hidle
    cases hidle
  · rw [ht] at hidle
    cases hidle
  · rw [ht] at hidle
    cases hidle
  · exact ⟨v, hv, ht⟩
  · rw [ht] at hok
    rcases he with ⟨rfl, _⟩ | ⟨rfl, _⟩ <;> cases hok
  · rw [ht] at hok
    cases hok

/-- A PRIMEGEN that completes without an error has passed its range check (rule R143). -/
theorem primegen_result_in_range (hI : s.Inv) (hp : s.phase = .busy (.primegen rd sel w))
    (h : exec (.primegen rd sel) s = .next t) (hok : t.errcode = .noError) : w.bits + 1 ≤ s.cfg.width := by
  obtain ⟨_, _, hpoint⟩ := hI.runningOk _ hp
  cases hpt : w.pt with
  | check =>
    rw [hpt] at hpoint
    by_contra hout
    rw [primegenOutOfRange s rd sel w hp hpoint hpt (by omega)] at h
    cases h
    cases hok
  | draw =>
    rw [hpt] at hpoint
    exact hpoint.1
  | test m =>
    rw [hpt] at hpoint
    exact hpoint.1

/-- The numbers of exactly k + 1 bits (rule R10). -/
theorem bitLength_eq_succ {v k : Nat} (hlo : 2 ^ k ≤ v) (hhi : v < 2 ^ (k + 1)) : bitLength v = k + 1 := by
  have hle := (bitLength_le_iff v (k + 1)).2 hhi
  have hgt : ¬ bitLength v ≤ k := by rw [bitLength_le_iff]; omega
  omega

/-- Settles O43: the result fits the register, which reads it back. -/
theorem primegenResultHasBitsPlusOneBits : Obligations.PrimegenResultHasBitsPlusOneBits := by
  intro s t rd sel w hI hp h hidle hok
  have hwidth := primegen_result_in_range hI hp h hok
  obtain ⟨v, ⟨hlo, hhi, hparity⟩, rfl⟩ := exec_primegen_result hI hp h hidle hok
  have hval : (s.writeX rd v).complete.xval rd = v :=
    s.xval_writeX_self rd (hhi.trans_le (Nat.pow_le_pow_right Nat.two_pos hwidth))
  rw [hval]
  exact ⟨hlo, hhi, bitLength_eq_succ hlo hhi, hparity.imp_right And.right, s.xWritten_writeX rd v⟩

end Sys2Proof.Machine
end

section
/-! PRIMEGEN that never completes: bits = 0 (rule R147), and endlessly many rejected candidates (rules R146,
R204). -/

namespace Sys2Proof.Machine

variable {s t : State} {rd : XName} {sel : BitSel} {w : GenWork}

/-! ## bits = 0 -/

/-- Rule R147: the one number of one bit. -/
theorem Draw.lawful_one_bit_iff (v : Nat) : (Draw.bits 1).lawful v = true ↔ v = 1 := by
  rw [Draw.lawful_bits_iff]
  omega

theorem Draw.freeAnswer_one_bit (n : Nat) : (Draw.bits 1).freeAnswer n = 1 := by
  simp [Draw.freeAnswer, Nat.mod_one]

theorem ZeroBitsHang.busy (h : ZeroBitsHang s) : s.busy = true := by
  obtain ⟨rd, sel, w, hp, _⟩ := h
  exact (State.busy_iff s).2 ⟨_, hp⟩

/-- The hang is a matter of the phase, the request and the answer on the port only. -/
theorem ZeroBitsHang.of_answer (h : ZeroBitsHang s) (hp : t.phase = s.phase) (hd : t.draw = s.draw)
    (ha : t.ack = s.ack ∨ t.ack = some 1) : ZeroBitsHang t := by
  obtain ⟨rd, sel, w, hphase, hbits, hpt, hdraw, hack⟩ := h
  refine ⟨rd, sel, w, hp.trans hphase, hbits, hpt, hd ▸ hdraw, fun v hv => ?_⟩
  rcases ha with ha | ha
  · exact hack v (ha ▸ hv)
  · exact (Option.some.inj (ha.symm.trans hv)).symm

/-- The request in flight, if any, is the one for a number of one bit. -/
theorem ZeroBitsHang.inFlight {d : Draw} (h : ZeroBitsHang s) (hf : s.inFlight = some d) : d = .bits 1 := by
  obtain ⟨_, _, _, _, _, _, hdraw, _⟩ := h
  obtain ⟨hd, _⟩ := State.inFlight_eq_some.1 hf
  rcases hdraw with hdraw | hdraw <;> rw [hd] at hdraw <;> cases hdraw
  rfl

theorem ZeroBitsHang.answered (h : ZeroBitsHang s) : ZeroBitsHang (s.answered 1) := by
  cases hf : s.inFlight with
  | none => rwa [State.answered_none hf]
  | some d => rw [State.answered_some hf]; exact h.of_answer rfl rfl (.inr rfl)

theorem ZeroBitsHang.answeredFree (h : ZeroBitsHang s) : ZeroBitsHang s.answeredFree := by
  cases hf : s.inFlight with
  | none => rwa [State.answeredFree_none hf]
  | some d =>
    obtain rfl := h.inFlight hf
    rw [State.answeredFree_some hf]
    exact h.of_answer rfl rfl (.inr (congrArg some (Draw.freeAnswer_one_bit _)))

/-- Rules R140, R147: the engine asks for a candidate, waits for it, or rejects the candidate 1 and asks for
the next. -/
theorem ZeroBitsHang.engineStep (h : ZeroBitsHang s) (hv : s.cfg.valid = true) :
    ∃ t, engineStep s = .next t ∧ ZeroBitsHang t := by
  obtain ⟨rd, sel, w, hp, hbits, hpt, hdraw, hack⟩ := h
  obtain ⟨⟨hlimbs, _⟩, _⟩ := valid_iff.1 hv
  have hrange : w.bits < s.cfg.width := by unfold Config.width; omega
  rw [engineStep_command hp rfl]
  rcases hdraw with hd | hd
  · rw [exec_primegen_request hp hd hpt hrange, hbits]
    exact ⟨_, rfl, rd, sel, _, rfl, rfl, .inr rfl, .inr rfl, hack⟩
  · cases ha : s.ack with
    | none => exact ⟨s, exec_wait hp rfl hd ha, rd, sel, w, hp, hbits, hpt, .inr hd, hack⟩
    | some v =>
      obtain rfl := hack v ha
      rcases hpt with hpt | hpt
      · have hresume : genResume w 1 = w := by rw [genResume, hpt]
        rw [exec_primegen_busy hp, engineRun_lawful hd ha rfl, hresume, gen_run_request (.inl hpt) hrange, hbits]
        exact ⟨_, rfl, rd, sel, _, rfl, rfl, .inr rfl, .inr rfl, nofun⟩
      · have hreject := (primegenCandidateOutcome s rd sel w 1 hp hpt (by rw [hbits, hd]) ha
          (by rw [hbits]; decide) (by rw [hbits]; decide)).1 (.inl (by decide))
        exact ⟨_, hreject, rd, sel, w, hp, hbits, .inr hpt, .inr hd, nofun⟩

/-- Settles O44: by the move whose turn it is. -/
theorem primegenOfZeroBitsNeverCompletes : Obligations.PrimegenOfZeroBitsNeverCompletes := by
  refine ⟨Draw.lawful_one_bit_iff, fun s rd sel hp hd ha hbits => ?accepted, fun s hv h hreset hanswer => ?step⟩
  case accepted =>
    obtain ⟨_, _, haccept, _⟩ := acceptanceTakesTheSnapshot s hp
    refine ⟨_, haccept rd sel, rd, sel, _, rfl, ?_, .inl rfl, .inl hd, fun v hv => ?_⟩
    · cases sel <;> exact congrArg BitVec.toNat hbits
    · exact nomatch ha.symm.trans hv
  case step =>
    have h' : ZeroBitsHang s.afterTurn := h.of_answer rfl rfl (.inl rfl)
    suffices ∃ t, step s = .next t ∧ ZeroBitsHang t by
      obtain ⟨t, ht, hang⟩ := this
      exact ⟨t, ht, hang, hang.busy⟩
    rw [step_turn hv]
    cases hturn : s.turn.1 with
    | bus a =>
      obtain ⟨_, _, _, _, _, _, hbus⟩ := busStep_busy h'.busy a
      rw [handleEvent, busEvent, hbus]
      exact ⟨_, rfl, h'.of_answer rfl rfl (.inl rfl)⟩
    | answer v =>
      obtain rfl := hanswer v hturn
      exact ⟨_, rfl, h'.answered⟩
    | freeAnswer => exact ⟨_, rfl, h'.answeredFree⟩
    | engine => exact h'.engineStep hv
    | reset => exact absurd hturn hreset

/-! ## Endlessly many rejected candidates -/

/-- A period in which the engine is BUSY throughout never ends. -/
theorem run_period_busy {k : Nat} (hperiod : core.run k s = .next s)
    (hbusy : ∀ j < k, ∃ t : State, core.run j s = .next t ∧ t.busy = true) (n j : Nat) (hj : j < k) :
    ∃ t : State, core.run (k * n + j) s = .next t ∧ t.busy = true ∧ (j = 0 → t = s) := by
  obtain ⟨t, ht, hb⟩ := hbusy j hj
  refine ⟨t, (run_add j (k * n) s (run_period hperiod n)).trans ht, hb, ?_⟩
  rintro rfl
  exact (Host.Outcome.next.inj ht).symm

section Moves

variable {d : Draw} {v a e r : Nat} {es : List Event}

/-- The random source's answer to the request in flight (rule R24). -/
theorem handleEvent_answer (hd : s.draw = some d) (ha : s.ack = none) :
    handleEvent (.answer v) s = .next { s with ack := some v } := by
  rw [handleEvent, State.answered_some (State.inFlight_eq_some.2 ⟨hd, ha⟩)]

/-- The engine's move of a running PRIMEGEN. -/
theorem step_primegen (hv : s.cfg.valid = true) (hs : s.script = .engine :: es)
    (hp : s.phase = .busy (.primegen rd sel w)) :
    step s = exec (.primegen rd sel) { s with script := es } := by
  rw [step_event hv hs, handleEvent]
  exact engineStep_command hp rfl

/-- Rules R144, R146: a candidate rejected at once, with the next request the one that stood. -/
theorem step_rejects_candidate (hv : s.cfg.valid = true) (hs : s.script = .engine :: es)
    (hp : s.phase = .busy (.primegen rd sel w)) (hpt : w.pt = .draw) (hd : s.draw = some (.bits (w.bits + 1)))
    (ha : s.ack = some v) (hlo : 2 ^ w.bits ≤ v) (hhi : v < 2 ^ (w.bits + 1))
    (hrej : v < 2 ∨ (v % 2 = 0 ∧ v ≠ 2)) : step s = .next { s with script := es, ack := none } := by
  rw [step_primegen hv hs hp]
  exact (primegenCandidateOutcome { s with script := es } rd sel w v hp hpt hd ha hlo hhi).1 hrej

/-- PRIMEGEN at the first round of the test of the candidate v, where v - 1 = 2^e * r (rule R113). -/
def GenWork.firstRound (w : GenWork) (v e r : Nat) : GenWork :=
  { w with pt := .test { n := v, k := w.k, s := e, r := r, round := 1, pt := .round } }

/-- Rules R112, R119, R145: an odd candidate from 5 on leads to the request of its first witness; its
decomposition is the given one. -/
theorem step_tests_candidate (hv : s.cfg.valid = true) (hs : s.script = .engine :: es)
    (hp : s.phase = .busy (.primegen rd sel w)) (hpt : w.pt = .draw) (hd : s.draw = some (.bits (w.bits + 1)))
    (ha : s.ack = some v) (hlo : 2 ^ w.bits ≤ v) (hhi : v < 2 ^ (w.bits + 1)) (h5 : 5 ≤ v) (hk : 1 ≤ w.k)
    (heq : 2 ^ e * r = v - 1) (hr : r % 2 = 1) (he : 1 ≤ e) :
    step s = .next { s with
      script := es, phase := .busy (.primegen rd sel (w.firstRound v e r))
      draw := some (.below (v - s.cfg.mrBoundOffset.value)), ack := none } := by
  have hodd : v % 2 = 1 := by
    have heven : 2 ∣ v - 1 := heq ▸ (dvd_pow_self 2 (by omega)).mul_right r
    omega
  obtain ⟨_, _, _, hwitness⟩ := primegenCandidateOutcome { s with script := es } rd sel w v hp hpt hd ha hlo hhi
  obtain ⟨e', r', heq', hr', _, hexec⟩ := hwitness ⟨h5, hodd, hk⟩
  obtain ⟨rfl, rfl⟩ := decomposition_unique (heq'.trans heq.symm) hr' hr
  rw [step_primegen hv hs hp]
  exact hexec

/-- Rules R115, R146: a witness that proves the candidate composite leads to the request of the next. -/
theorem step_proves_composite (hv : s.cfg.valid = true) (hs : s.script = .engine :: es)
    (hp : s.phase = .busy (.primegen rd sel (w.firstRound v e r))) (hk : 1 ≤ w.k)
    (hd : s.draw = some (.below (v - s.cfg.mrBoundOffset.value))) (ha : s.ack = some a)
    (hlt : a < v - s.cfg.mrBoundOffset.value)
    (hfail : roundPasses s.cfg.mrEarlyExit v e r (a + 2) = false) :
    step s = .next { s with
      script := es, phase := .busy (.primegen rd sel { w with pt := .draw })
      draw := some (.bits (w.bits + 1)), ack := none } := by
  have hround := primegenRoundOutcome { s with script := es } rd sel (w.firstRound v e r) _ a hp rfl rfl hk hd
    ha hlt
  rw [step_primegen hv hs hp, hround, if_neg (by simp [hfail])]
  rfl

end Moves

/-- Settles O45: each period's moves lead back to the state they began in. -/
theorem endlessRejectedCandidatesHang : Obligations.EndlessRejectedCandidatesHang := by
  intro s rd sel w v hv hp hpt hd ha hs hlo hhi
  have hbusy : s.busy = true := (State.busy_iff s).2 ⟨_, hp⟩
  refine ⟨fun hrej hcycle => ?atOnce, fun a e r h5 hk heq hr he hlt hfail hcycle => ?byWitness⟩
  case atOnce =>
    have h1 : core.step s = _ := (step_cycle hv hs hcycle).trans (handleEvent_answer hd ha)
    have h2 : core.step _ = _ :=
      step_rejects_candidate (s := { s with script := [.engine], ack := some v }) hv rfl hp hpt hd rfl hlo hhi hrej
    have hback : ({ s with script := [], ack := none } : State) = s := by rw [← hs, ← ha]
    refine run_period_busy ?_ fun j hj => ?_
    · rw [run_succ h1, run_succ h2]
      exact congrArg _ hback
    · match j, hj with
      | 0, _ => exact ⟨_, rfl, hbusy⟩
      | 1, _ => exact ⟨_, run_succ h1 0, hbusy⟩
  case byWitness =>
    have h1 : core.step s = _ := (step_cycle hv hs hcycle).trans (handleEvent_answer hd ha)
    have h2 : core.step _ = _ :=
      step_tests_candidate (s := { s with script := [.engine, .answer a, .engine], ack := some v }) hv rfl hp hpt hd
        rfl hlo hhi h5 hk heq hr he
    have h3 : core.step _ = _ :=
      (step_event (s := { s with
        script := [.answer a, .engine], phase := .busy (.primegen rd sel (w.firstRound v e r))
        draw := some (.below (v - s.cfg.mrBoundOffset.value)), ack := none }) hv rfl).trans
        (handleEvent_answer rfl rfl)
    have h4 : core.step _ = _ :=
      step_proves_composite (s := { s with
        script := [.engine], phase := .busy (.primegen rd sel (w.firstRound v e r))
        draw := some (.below (v - s.cfg.mrBoundOffset.value)), ack := some a }) hv rfl rfl hk rfl rfl hlt hfail
    have hback : ({ s with
        script := [], phase := .busy (.primegen rd sel { w with pt := .draw })
        draw := some (.bits (w.bits + 1)), ack := none } : State) = s := by rw [← hpt, ← hp, ← hd, ← hs, ← ha]
    refine run_period_busy ?_ fun j hj => ?_
    · rw [run_succ h1, run_succ h2, run_succ h3, run_succ h4]
      exact congrArg _ hback
    · match j, hj with
      | 0, _ => exact ⟨_, rfl, hbusy⟩
      | 1, _ => exact ⟨_, run_succ h1 0, hbusy⟩
      | 2, _ => exact ⟨_, by rw [run_succ h1, run_succ h2]; rfl, rfl⟩
      | 3, _ => exact ⟨_, by rw [run_succ h1, run_succ h2, run_succ h3]; rfl, rfl⟩

end Sys2Proof.Machine
end

section
/-! Errors, the interrupt and the end of a run: the illegal word (rule R166), the codes each command ends with
(rule R164), the level irq (rule R170), the recorded fault (rule R169) and final states (rule R205). -/

namespace Sys2Proof.Machine

variable {s t : State} {r : Running}

/-! ## Error codes -/

/-- An accepted illegal word completes at the engine's next step (rule R166). -/
theorem step_engine_illegal {es : List Event} (hv : s.cfg.valid = true) (hs : s.script = .engine :: es)
    (hp : s.phase = .busy .illegal) : step s = .next (State.raiseError { s with script := es } .illegal) :=
  (step_event hv hs).trans (engineStep_illegal (s := { s with script := es }) hp)

/-- Settles O22: the write is accepted or dropped by the phase, and the engine's step of the accepted illegal
word raises its error. -/
theorem illegalWordCompletesAsIllegal : Obligations.IllegalWordCompletesAsIllegal := by
  intro s c es hv hc s1 t
  constructor
  · intro hp a
    refine ⟨?_, step_engine_illegal (s := a) hv rfl rfl⟩
    rw [step_write_cmd hv ((State.not_busy_iff s).2 hp), acceptWord, hc]
    rfl
  · exact fun hb => step_write_scalar_busy (slot := .cmd) hv hb (by decide)

/-- The code that a completion leaves: 0 of a legal command, or one of the command's errors (rules R161,
R164). -/
theorem engineStep_errcode (hI : s.Inv) (hp : s.phase = .busy r) (h : engineStep s = .next t)
    (hidle : t.phase = .idle) : (t.errcode = .noError ∧ r.command ≠ none) ∨ t.errcode ∈ r.errors := by
  rcases engineStep_inv hI hp h with rfl | ⟨_, _, _, rfl, _⟩ | ⟨i, hc, hdone⟩ | ⟨e, rfl, he⟩
  · rw [hp] at hidle
    cases hidle
  · cases hidle
  · obtain ⟨_, _, _, hcode, _⟩ := hdone.ends
    exact .inl ⟨hcode, by simp [hc]⟩
  · exact .inr he

/-- Settles O50: the list of a legal command is 0 and its errors, and that of an illegal word its error. -/
theorem errorCodesOfEachCommand : Obligations.ErrorCodesOfEachCommand := by
  intro s t r hI hp h hidle
  have hcode := engineStep_errcode hI hp h hidle
  cases r with
  | illegal => exact hcode.resolve_left fun hdone => hdone.2 rfl
  | _ => exact List.mem_cons.2 (hcode.imp_left And.left)

/-! ## The recorded fault -/

/-- No command's step records a fault or clears one: its operands are read at acceptance (rules R28, R65). -/
theorem engineStep_recorded (hp : s.phase = .busy r) (h : engineStep s = .next t) :
    t.recorded = s.recorded := by
  rcases engineStep_cases hp h with ⟨_, _, _, rfl⟩ | ⟨i, _, hdone⟩ | ⟨_, _, rfl⟩
  · rfl
  · cases i <;> obtain ⟨_, rfl⟩ := hdone <;> rfl
  · rfl

/-- A step keeps the recorded fault or records UNWRITTEN_READ (rule R169). -/
theorem step_recorded (h : step s = .next t) :
    t.recorded = s.recorded ∨ t.recorded = some .unwrittenRead := by
  rcases step_cases h with ⟨_, _, _, rfl, hf⟩ | ⟨_, _, _, rfl⟩ | ⟨_, _, _, _, _, _, _, _, _, rfl, _⟩ |
    ⟨_, _, _, _, _, _, _, _, rfl⟩ | ⟨_, _, _, _, rfl, hf, _⟩ | ⟨_, hp, hengine⟩ | ⟨_, rfl⟩
  case inl => exact hf.imp_left Eq.symm
  case inr.inr.inr.inr.inl => exact hf.imp_left Eq.symm
  case inr.inr.inr.inr.inr.inl => exact .inl (engineStep_recorded (s := s.afterTurn) hp hengine)
  all_goals exact .inl rfl

/-- Settles O58: UNWRITTEN_READ is the one fault there is to record. -/
theorem recordedFaultIsNeverCleared : Obligations.RecordedFaultIsNeverCleared := by
  intro s t f h hf
  cases f with
  | unwrittenRead =>
    rcases step_recorded h with hkept | hrecorded
    · rw [hkept, hf]
    · exact hrecorded

/-! ## The interrupt -/

theorem State.irq_iff : s.irq = true ↔ s.done = true ∧ s.ie = true := Bool.and_eq_true_iff

/-- Settles O55: irq is DONE AND IE, of which each operation writes one or leaves both. -/
theorem interruptIsTheLevelOfDoneAndIe : Obligations.InterruptIsTheLevelOfDoneAndIe := by
  intro s
  refine ⟨State.irq_iff, rfl, fun _ => rfl, fun v hclear => ?w1c, fun _ _ => rfl, rfl,
    fun v hmask => ⟨?masked, rfl⟩, fun v hset => ?unmasked, ?line⟩
  case w1c => simp only [State.irq, State.writeStatus, hclear, Bool.not_true, Bool.and_false, Bool.false_and]
  case masked => simp only [State.irq, State.writeCtrl, hmask, Bool.and_false]
  case unmasked => simp only [State.irq, State.writeCtrl, hset, Bool.and_true]
  case line => simp only [State.irqLine, State.irq_iff]

/-! ## Final states -/

/-- The moves of the engine and of the random source are those that are neither an access nor a reset. -/
theorem Event.fromHost_eq_false_iff (e : Event) : e.fromHost = false ↔ e ≠ .reset ∧ ∀ a, e ≠ .bus a := by
  cases e <;> simp [Event.fromHost]

theorem State.final_iff : s.final = true ↔
    (∀ e, e ∈ s.script ∨ e ∈ s.cycle → e ≠ .reset ∧ ∀ a, e ≠ .bus a) ∧ s.phase = .idle ∧ s.draw = none ∧
      s.recorded = none := by
  simp only [State.final, Bool.and_eq_true, List.all_eq_true, List.mem_append, Bool.not_eq_true',
    Event.fromHost_eq_false_iff, State.not_busy_iff, Option.isNone_iff_eq_none, and_assoc]

/-- The move whose turn it is is listed, or it is the engine's with no move listed (log entry 6). -/
theorem State.turn_fst_listed (s : State) :
    s.turn.1 = .engine ∨ s.turn.1 ∈ s.script ∨ s.turn.1 ∈ s.cycle := by
  unfold State.turn
  cases s.script with
  | cons e es => exact .inr (.inl List.mem_cons_self)
  | nil =>
    cases s.cycle with
    | cons e es => exact .inr (.inr List.mem_cons_self)
    | nil => exact .inl rfl

/-- The moves after a turn were listed before it (log entry 6). -/
theorem State.listed_of_mem_turn_snd {e : Event} (h : e ∈ s.turn.2) : e ∈ s.script ∨ e ∈ s.cycle := by
  unfold State.turn at h
  cases hs : s.script with
  | cons e' es =>
    rw [hs] at h
    exact .inl (List.mem_cons_of_mem _ h)
  | nil =>
    rw [hs] at h
    cases hc : s.cycle with
    | cons e' es =>
      rw [hc] at h
      exact .inr (List.mem_cons_of_mem _ h)
    | nil =>
      rw [hc] at h
      cases h

/-- Taking a move off the script keeps a state final. -/
theorem State.final_afterTurn (h : s.final = true) : s.afterTurn.final = true := by
  obtain ⟨hmoves, hrest⟩ := State.final_iff.1 h
  exact State.final_iff.2 ⟨fun e he => hmoves e (he.elim State.listed_of_mem_turn_snd .inr), hrest⟩

/-- On an IDLE engine without a request the engine and the random source find nothing to do (rules R180,
R191). -/
theorem handleEvent_rest {e : Event} (he : e ≠ .reset ∧ ∀ a, e ≠ .bus a) (hp : s.phase = .idle)
    (hd : s.draw = none) : handleEvent e s = .next s := by
  have hf : s.inFlight = none := by
    rw [State.inFlight, hd]
    cases s.ack <;> rfl
  cases e with
  | bus a => exact absurd rfl (he.2 a)
  | reset => exact absurd rfl he.1
  | engine => exact engineStep_idle hp
  | answer v => exact congrArg _ (State.answered_none hf)
  | freeAnswer => exact congrArg _ (State.answeredFree_none hf)

/-- The step of a final state takes a move off the script and does nothing else (rule R205). -/
theorem step_final (hv : s.cfg.valid = true) (h : s.final = true) : step s = .next s.afterTurn := by
  obtain ⟨hmoves, hp, hd, _⟩ := State.final_iff.1 h
  have hturn : s.turn.1 ≠ .reset ∧ ∀ a, s.turn.1 ≠ .bus a := by
    rcases s.turn_fst_listed with hengine | hlisted
    · simp [hengine]
    · exact hmoves _ hlisted
  rw [step_turn hv]
  exact handleEvent_rest hturn hp hd

/-- Settles O59: a final state's step takes its move off the script, and the moves left are among those it
had. -/
theorem finalStatesRest : Obligations.FinalStatesRest := by
  refine ⟨fun _ => State.final_iff, fun _ hv h => ⟨step_final hv h, State.final_afterTurn h⟩,
    fun _ => afterTurn_empty, fun s h => ?notFinal⟩
  case notFinal =>
    rw [Bool.eq_false_iff]
    intro hfinal
    obtain ⟨_, hp, hd, _⟩ := State.final_iff.1 hfinal
    rcases h with hbusy | hdraw
    · rw [(State.not_busy_iff s).2 hp] at hbusy
      cases hbusy
    · exact hdraw hd

end Sys2Proof.Machine
end
